-- ==== Sys2Proof/Word.lean ====
section
/-!
DEFINITION. The one data word of the core: the byte (spec/00_scope.md R4).
-/

namespace Sys2Proof

/-- A byte: 8 bits, bit 7 the most significant, taken as an unsigned value (R4). -/
abbrev Byte := BitVec 8

end Sys2Proof
end

