-- ==== Sys2Proof/Config.lean ====
section
/-!
DEFINITION. What an implementation fixes: the OPEN parameters START, STOP, ESC and RB_CAP (spec/00_scope.md R2, R8;
spec/93_implementation_defined.md I5, I6), the strategy input MODE_IN (I7), and the fixed sizes of the wire format
(R5, R6, R7; spec/30_encoding.md R31).
-/

namespace Sys2Proof

/-- The error-detection strategy, a closed set of two variants (R3, R12). -/
inductive Mode where
  | parity
  | crc8
  deriving DecidableEq, Repr, Inhabited

/-- The four OPEN parameters of a core (00_scope.md section 4). `rbCap = none` is the unbounded buffer (R8). -/
structure Params where
  start : Byte
  stop : Byte
  esc : Byte
  rbCap : Option Nat
  deriving DecidableEq, Repr

/-- What the spec asks of the parameters: three pairwise distinct bytes (R2), and a capacity of at least 21 or none (R8). -/
abbrev Params.Wf (p : Params) : Prop :=
  p.start ≠ p.stop ∧ p.start ≠ p.esc ∧ p.stop ≠ p.esc ∧ ∀ c ∈ p.rbCap, 21 ≤ c

/-- Parameters together with the proof that they are legal ones. The default values only show that the type is
inhabited; nothing in the model takes them. -/
structure LinkParams where
  params : Params := ⟨0, 1, 2, none⟩
  wf : params.Wf := by decide
  deriving Inhabited

/-- The parameters of the core that comes out of `State.reset`: some legal ones, no proof can see which
(R2: OPEN parameters; I5: a model must not fix them to P0). notes/assumptions/1.md. -/
opaque Config.link : LinkParams

/-- The configuration input MODE_IN at the reset that starts a run (R71, I7): one of the two, no proof can see which.
notes/assumptions/2.md. -/
opaque Config.modeIn : Mode

/-- SUBFRAME_MAX, the most payload bytes of a sub-frame (R5). -/
abbrev Config.subframeMax : Nat := 8

/-- GEN, the degree-8 generator `1 1101 0101` (R6). -/
abbrev Config.gen : BitVec 9 := 0x1D5#9

/-- FRAME_PAYLOAD_MAX, the longest payload one FRAME takes (30_encoding.md R31). -/
abbrev Config.framePayloadMax : Nat := 26208

end Sys2Proof
end

