-- ==== Sys2Proof/Syntax.lean ====
section
/-!
DEFINITION. The commands of the core, one constructor per row of spec/opcode_table.json (spec/30_encoding.md R30).
A command is the record (OP, OPERAND) with LEN = |OPERAND| (R29). The operand is kept as it was sent, whatever its
length, because a length that is not legal for the opcode is a command too: it answers BADLEN (R33).
-/

namespace Sys2Proof

/-- A command with its operand bytes, in the order sent (R29, R30, R31). -/
inductive Instr where
  /-- OP 0x01 (40_escaper.md R34); legal operand `[b]`. -/
  | escape (operand : List Byte)
  /-- OP 0x02 (40_escaper.md R35); legal operand: the first 0 to 2 bytes of a stream. -/
  | unescape (operand : List Byte)
  /-- OP 0x03 (41_parity.md R38); legal operand: a sub-frame of 0 to 8 bytes. -/
  | parCompute (operand : List Byte)
  /-- OP 0x04 (41_parity.md R39); legal operand: a sub-frame and then the received check byte. -/
  | parVerify (operand : List Byte)
  /-- OP 0x05 (42_crc8.md R43); legal operand: a sub-frame of 0 to 8 bytes. -/
  | crcCompute (operand : List Byte)
  /-- OP 0x06 (42_crc8.md R44); legal operand: a sub-frame and then the received check byte. -/
  | crcVerify (operand : List Byte)
  /-- OP 0x07 (43_framer.md R47); legal operand: a payload of 0 to 26208 bytes. -/
  | frame (operand : List Byte)
  /-- OP 0x08 (44_deframer.md R50); legal operand: none. -/
  | deframe (operand : List Byte)
  /-- OP 0x09 (45_host_interface.md R60); legal operand: 0 to 65535 bytes. -/
  | rbAppend (operand : List Byte)
  /-- OP 0x0A (45_host_interface.md R61); legal operand: none. -/
  | statusRead (operand : List Byte)
  /-- OP 0x0B (45_host_interface.md R62); legal operand: none. -/
  | cfgRead (operand : List Byte)
  deriving DecidableEq, Repr

/-- The OPERAND field of a command (R29). -/
def Instr.operand : Instr → List Byte
  | .escape o => o
  | .unescape o => o
  | .parCompute o => o
  | .parVerify o => o
  | .crcCompute o => o
  | .crcVerify o => o
  | .frame o => o
  | .deframe o => o
  | .rbAppend o => o
  | .statusRead o => o
  | .cfgRead o => o

end Sys2Proof
end

