-- ==== Sys2Proof/WellFormed.lean ====
section
/-!
DEFINITION. Which command records have a serial form: those whose operand length fits the 16-bit LEN field
(spec/30_encoding.md R29). A length that fits LEN but is not legal for its opcode is well formed: it answers BADLEN (R33).
-/

namespace Sys2Proof

/-- The one check: |OPERAND| fits the 16-bit field LEN (R29). -/
def Instr.wf (i : Instr) : Bool := decide (i.operand.length ≤ 0xFFFF)

end Sys2Proof
end

