-- ==== Sys2Proof/Decode.lean ====
section
/-!
DEFINITION. The command encoding (spec/30_encoding.md R29, R30, R33, R78): the decoder, total on any bytes, and the
encoder written from the same tables. A command is `OP · LEN[15:8] · LEN[7:0] · OPERAND`.
-/

namespace Sys2Proof

/-- The opcode map read from the opcode: all 8 bits are compared, and every value outside the map is reserved (R30). -/
def instrOf (op : Byte) (operand : List Byte) : Option Instr :=
  match op.toNat with
  | 0x01 => some (.escape operand)
  | 0x02 => some (.unescape operand)
  | 0x03 => some (.parCompute operand)
  | 0x04 => some (.parVerify operand)
  | 0x05 => some (.crcCompute operand)
  | 0x06 => some (.crcVerify operand)
  | 0x07 => some (.frame operand)
  | 0x08 => some (.deframe operand)
  | 0x09 => some (.rbAppend operand)
  | 0x0A => some (.statusRead operand)
  | 0x0B => some (.cfgRead operand)
  | _ => none

/-- The 16-bit length from its two bytes, most significant first (R22, R29). -/
def lenOf (hi lo : Byte) : Nat := hi.toNat * 256 + lo.toNat

/-- The two bytes of a 16-bit length, most significant first (R22, R29). -/
def lenBytes (n : Nat) : List Byte := [BitVec.ofNat 8 (n / 256), BitVec.ofNat 8 n]

/-- What the first bytes of a command stream hold. -/
inductive Decoded where
  /-- A command of the opcode map, and the bytes after it. -/
  | instr (i : Instr) (rest : List Byte)
  /-- A command with the reserved opcode `op` (R33), and the bytes after its operand. -/
  | reserved (op : Byte) (rest : List Byte)
  /-- The bytes end inside a command, so they are no command (93_implementation_defined.md I11). -/
  | truncated
  deriving DecidableEq, Repr

/-- Read one command from the front of a command stream (R29, R30). A command with a reserved opcode has a LEN and an
operand like any other. -/
def decode : List Byte → Decoded
  | op :: hi :: lo :: rest =>
    if rest.length < lenOf hi lo then .truncated
    else match instrOf op (rest.take (lenOf hi lo)) with
      | some i => .instr i (rest.drop (lenOf hi lo))
      | none => .reserved op (rest.drop (lenOf hi lo))
  | _ => .truncated

/-- The opcode of a command (R30). -/
def Instr.opcode : Instr → Byte
  | .escape _ => 0x01
  | .unescape _ => 0x02
  | .parCompute _ => 0x03
  | .parVerify _ => 0x04
  | .crcCompute _ => 0x05
  | .crcVerify _ => 0x06
  | .frame _ => 0x07
  | .deframe _ => 0x08
  | .rbAppend _ => 0x09
  | .statusRead _ => 0x0A
  | .cfgRead _ => 0x0B

/-- The serial form of a command (R29). -/
def encode (i : Instr) : List Byte := i.opcode :: lenBytes i.operand.length ++ i.operand

/-- The bytes of a number whose bit 0 is the least significant bit of the first byte, at least the three header bytes,
then as many zero operand bytes as the header's LEN asks for. -/
def wordBytes (nbits w : Nat) : List Byte :=
  let given := (List.range (max 3 ((nbits + 7) / 8))).map fun k => BitVec.ofNat 8 ((w % 2 ^ nbits) >>> (8 * k))
  match given with
  | _ :: hi :: lo :: rest => given ++ List.replicate (lenOf hi lo - rest.length) 0
  | _ => given

/-- What the decoder reads from a row of the opcode table: the command whose bits are `w`, every bit above `nbits` zero. -/
def decodeTableWord (nbits w : Nat) : Option Instr :=
  match decode (wordBytes nbits w) with
  | .instr i _ => some i
  | _ => none

end Sys2Proof
end

