-- ==== Sys2Proof/Machine/State.lean ====
section
/-!
DEFINITION. The state of the core: the architectural triple (CFG, STATUS, RB) of spec/10_state.md R9, the transient
registers of R16 to R18, the hardwired parameters the core carries, and the two sides of the host interface (the
commands and resets still to come, and the responses given). All of it is plain data.
-/

namespace Sys2Proof.Machine

/-- The outcome of a DEFRAME (44_deframer.md R50). OUTCOME = NONE is the absence of one (10_state.md R13). -/
inductive FrameOutcome where
  | done
  | incomplete
  | corrupt
  deriving DecidableEq, Repr

/-- Why a DEFRAME ended CORRUPT (R13). REASON = NONE is the absence of one. -/
inductive CorruptReason where
  | malformed
  | checksum
  | oversize
  deriving DecidableEq, Repr

/-- The STATUS register's two fields (R13); bits 7:4 are hardwired to 0 and have no storage. -/
structure Status where
  outcome : Option FrameOutcome
  reason : Option CorruptReason
  deriving DecidableEq, Repr

/-- The deframer's stored phase (R18). DONE, INCOMPLETE and CORRUPT are outcomes, not phases. -/
inductive Phase where
  | seekStart
  | inFrame
  deriving DecidableEq, Repr

/-- The transient registers (R10): each is initialised by the command that uses it, and no later command observes it.
notes/assumptions/8.md and 9.md. -/
structure Transient where
  /-- The LFSR accumulator `acc`, 9 bits (R16). -/
  acc : BitVec 9
  /-- The framer's sub-frame working buffer, 0 to 8 bytes (R17). -/
  work : List Byte
  /-- The deframer's phase (R18). -/
  phase : Phase
  /-- The deframer's cursor `i` (R18). -/
  cursor : Nat
  /-- The deframer's accumulation `lits`, 0 to 10 literals (R18). -/
  lits : List Byte
  deriving DecidableEq, Repr

/-- The one memory, the receive buffer: a queue of bytes named by position, 0 the oldest (20_memory.md R20). -/
abbrev Memory := List Byte

/-- The form every receive buffer has: at most RB_CAP bytes (R15, R8). -/
def Memory.wf (cap : Option Nat) (m : Memory) : Bool := cap.all fun c => decide (m.length ≤ c)

/-- One thing the host does to the core (45_host_interface.md R63), in the order the host serialises them (R73). -/
inductive HostEvent where
  /-- Whole commands in serial form, one after another (30_encoding.md R29). -/
  | commands (bytes : List Byte)
  /-- A reset, with the MODE_IN it samples (70_reset_and_hazards.md R71). -/
  | reset (modeIn : Mode)
  deriving DecidableEq, Repr

/-- The response codes (30_encoding.md R32). -/
inductive ResponseCode where
  | ok
  | done
  | incomplete
  | corrupt
  | empty
  | overflow
  | badLen
  | illegal
  deriving DecidableEq, Repr

/-- A response: its code and data, RLEN = |DATA| (R29). -/
structure Response where
  code : ResponseCode
  data : List Byte
  deriving DecidableEq, Repr

/-- The machine. -/
structure State where
  /-- The hardwired parameters (R2, R8): configuration the core carries, never changed (notes/assumptions/1.md). -/
  params : Params
  /-- CFG.MODE (R12). -/
  mode : Mode
  /-- STATUS (R13). -/
  status : Status
  /-- The receive buffer RB (R15). -/
  rb : Memory
  /-- The transient registers (R16 to R18). -/
  transient : Transient
  /-- What the host has still to do, oldest first (R63, R73; the model's own field, notes/assumptions/3.md). -/
  pending : List HostEvent
  /-- The responses given, oldest first: the run's observable output (R77; notes/assumptions/10.md). -/
  responses : List Response
  deriving DecidableEq, Repr

/-- The core never traps (60_exceptions.md R68) and no event of it is fatal (R65), so no step faults: there is no reason. -/
inductive Fault where
  deriving DecidableEq, Repr

/-- Why a step has no meaning. -/
inductive Refusal where
  /-- Raised by an arm of `exec` for an instruction without a meaning; no arm does. Safe. -/
  | notModelled (mnemonic : String)
  /-- Raised by `step` when the bytes the host sent end inside a command: such bytes are not a command
  (93_implementation_defined.md I11; also a reset inside a command, I10). Safe. -/
  | truncatedCommand
  deriving DecidableEq, Repr

/-- STATUS after reset: 0x00 (R71). -/
def Status.atReset : Status := ⟨none, none⟩

/-- The transient registers of `State.reset`. The spec gives them no value (R71): DESIGN CHOICE, notes/assumptions/8.md. -/
def Transient.atReset : Transient := ⟨0, [], .seekStart, 0, []⟩

/-- A core with parameters `p` right after a reset that sampled `m` on MODE_IN, nothing sent and nothing answered (R71). -/
def State.resetWith (p : Params) (m : Mode) : State where
  params := p
  mode := m
  status := Status.atReset
  rb := []
  transient := Transient.atReset
  pending := []
  responses := []

/-- The machine right after reset (R71), for some legal parameters and some MODE_IN. -/
def State.reset : State := State.resetWith Config.link.params Config.modeIn

end Sys2Proof.Machine
end

