-- ==== Sys2Proof/Machine/Flags.lean ====
section
/-!
DEFINITION. The register images and codes: STATUS and CFG as bytes (spec/10_state.md R12, R13), the response codes
(spec/30_encoding.md R32) and the serial form of a response (R29).
-/

namespace Sys2Proof.Machine

/-- The code of OUTCOME, bits 1:0 of STATUS (R13). -/
def outcomeBits : Option FrameOutcome → Byte
  | none => 0
  | some .done => 1
  | some .incomplete => 2
  | some .corrupt => 3

/-- The code of REASON, bits 3:2 of STATUS (R13). -/
def reasonBits : Option CorruptReason → Byte
  | none => 0
  | some .malformed => 1
  | some .checksum => 2
  | some .oversize => 3

/-- STATUS as STATUS_READ returns it: (reason << 2) | outcome, bits 7:4 zero (R13, 44_deframer.md R58). -/
def Status.word (t : Status) : Byte := reasonBits t.reason <<< 2 ||| outcomeBits t.outcome

/-- CFG as CFG_READ returns it: MODE in bit 0, bits 7:1 zero (R12). -/
def modeWord : Mode → Byte
  | .parity => 0
  | .crc8 => 1

/-- The response code's byte (R32). -/
def ResponseCode.byte : ResponseCode → Byte
  | .ok => 0x00
  | .done => 0x01
  | .incomplete => 0x02
  | .corrupt => 0x03
  | .empty => 0x04
  | .overflow => 0x0E
  | .badLen => 0x0F
  | .illegal => 0xFF

/-- code(outcome): the code with which a DEFRAME of this outcome answers (R58). -/
def FrameOutcome.code : FrameOutcome → ResponseCode
  | .done => .done
  | .incomplete => .incomplete
  | .corrupt => .corrupt

end Sys2Proof.Machine
end

