-- ==== Sys2Proof/Machine/Ops.lean ====
section
/-!
DEFINITION. The named operations: the two accesses of the receive buffer (spec/20_memory.md R21), ending a command with
a response (spec/00_scope.md section 5), error responses, the end of a DEFRAME (spec/44_deframer.md R58) and reset
(spec/70_reset_and_hazards.md R71). The core has no traps (spec/60_exceptions.md R68): an abnormal event is an error
response, given by the one operation `State.reject`, and there is nothing to return from.
-/

namespace Sys2Proof.Machine

/-- RB_append: the bytes go at the back, in order (R21). -/
def Memory.append (m : Memory) (s : List Byte) : Memory := m ++ s

/-- RB_drop: the first n bytes go, and the byte that was RB[n] becomes RB[0] (R21). -/
def Memory.dropFront (m : Memory) (n : Nat) : Memory := m.drop n

/-- RB[i], the byte at position i, if i < RB.len (R20, R21). -/
def Memory.read (m : Memory) (i : Nat) : Option Byte := m[i]?

/-- Whether `n` more bytes fit: no when RB_CAP is bounded and RB.len + n > RB_CAP (45_host_interface.md R60). -/
def Memory.fits (cap : Option Nat) (m : Memory) (n : Nat) : Bool := cap.all fun c => decide (m.length + n ≤ c)

/-- respond(code, data): end the command with this response (R29, R32). -/
def State.respond (s : State) (c : ResponseCode) (d : List Byte) : State :=
  { s with responses := s.responses ++ [⟨c, d⟩] }

/-- An error response, ILLEGAL, BADLEN or OVERFLOW: RLEN = 0 and no state changed (R32, R65). -/
def State.reject (s : State) (c : ResponseCode) : State := s.respond c []

/-- finish(outcome, reason, d): write STATUS and respond (R58). -/
def State.finish (s : State) (o : FrameOutcome) (r : Option CorruptReason) (d : List Byte) : State :=
  { s with status := ⟨some o, r⟩ }.respond o.code d

/-- Load the LFSR accumulator (10_state.md R16). -/
def State.setAcc (s : State) (a : BitVec 9) : State := { s with transient := { s.transient with acc := a } }

/-- Reset of a core: MODE from MODE_IN, STATUS 0x00, RB empty (R71). It gives the transient registers no value, changes
no parameter, and what the host has still to do and the responses already given are the host's. -/
def State.resetCore (s : State) (m : Mode) : State :=
  { s with mode := m, status := Status.atReset, rb := [] }

/-- The serial form of a response, `CODE · RLEN · DATA` (R29). -/
def Response.bytes (r : Response) : List Byte := r.code.byte :: lenBytes r.data.length ++ r.data

end Sys2Proof.Machine
end

