-- ==== Sys2Proof/Machine/Operands.lean ====
section
/-!
DEFINITION. The operand forms: the legal LEN of each opcode (spec/30_encoding.md R31), the BADLEN check in its place in
the order of checks (R33), and the split of a verify operand into sub-frame and check byte.
-/

namespace Sys2Proof.Machine

/-- The legal LEN of each opcode (R31). -/
def legalLen : Instr → Bool
  | .escape o => decide (o.length = 1)
  | .unescape o => decide (o.length ≤ 2)
  | .parCompute o => decide (o.length ≤ Config.subframeMax)
  | .parVerify o => decide (1 ≤ o.length ∧ o.length ≤ Config.subframeMax + 1)
  | .crcCompute o => decide (o.length ≤ Config.subframeMax)
  | .crcVerify o => decide (1 ≤ o.length ∧ o.length ≤ Config.subframeMax + 1)
  | .frame o => decide (o.length ≤ Config.framePayloadMax)
  | .deframe o => decide (o.length = 0)
  | .rbAppend o => decide (o.length ≤ 65535)
  | .statusRead o => decide (o.length = 0)
  | .cfgRead o => decide (o.length = 0)

/-- The second check of R33: with a legal LEN the command runs, else it answers BADLEN and changes nothing. -/
def guardLen (i : Instr) (s run : State) : State := if legalLen i then run else s.reject .badLen

/-- A verify operand `s ++ [r]`: the sub-frame and the received check byte (R31). -/
def splitCheck (operand : List Byte) : Option (List Byte × Byte) :=
  operand.getLast?.map fun r => (operand.dropLast, r)

/-- The result byte of a verify: 0x01 for a match, 0x00 for a mismatch (41_parity.md R39, 42_crc8.md R44). -/
def boolByte (b : Bool) : Byte := if b then 1 else 0

end Sys2Proof.Machine
end

