-- ==== Sys2Proof/Machine/Crc.lean ====
section
/-!
DEFINITION. The check unit's CRC8 variant (spec/42_crc8.md): the LFSR clock on its 9-bit accumulator, CRC, CRC_COMPUTE
and CRC_VERIFY. As commands they work whatever MODE holds. The accumulator is the transient register of
spec/10_state.md R16.
-/

namespace Sys2Proof.Machine

/-- One clock of the 9-bit accumulator: shift left one, OR in the bit, and XOR with the generator if bit 8 is then set (R41). -/
def lfsrClock (acc : BitVec 9) (bit : Bool) : BitVec 9 :=
  let t := acc <<< 1 ||| (BitVec.ofBool bit).setWidth 9
  if t.getLsbD 8 then t ^^^ Config.gen else t

/-- CRC_STEP: the same clock on the 8 bits of state between clocks (R41). -/
def crcStep (a : Byte) (bit : Bool) : Byte := (lfsrClock (a.setWidth 9) bit).setWidth 8

/-- The bits of a byte, most significant first (R42). -/
def bitsOf (b : Byte) : List Bool := [7, 6, 5, 4, 3, 2, 1, 0].map fun k => b.getLsbD k

/-- The accumulator after the bytes of s, in order, have been clocked into one that starts at 0 (R42). -/
def crcAcc (s : List Byte) : BitVec 9 := (s.flatMap bitsOf).foldl lfsrClock 0

/-- CRC(s): the low 8 bits of the accumulator at the end (R42). -/
def crc (s : List Byte) : Byte := (crcAcc s).setWidth 8

/-- CVERIFY(s, r): r is not fed to the LFSR (R44). -/
def crcVerify (s : List Byte) (r : Byte) : Bool := crc s == r

/-- CRC_COMPUTE (R43). It leaves the accumulator at its last value (R16; notes/assumptions/9.md). -/
def execCrcCompute (operand : List Byte) (s : State) : Host.Outcome State Fault Refusal :=
  .next (guardLen (.crcCompute operand) s ((s.setAcc (crcAcc operand)).respond .ok [crc operand]))

/-- CRC_VERIFY (R44). An operand with no check byte has LEN 0, which is BADLEN. -/
def execCrcVerify (operand : List Byte) (s : State) : Host.Outcome State Fault Refusal :=
  .next (guardLen (.crcVerify operand) s
    (match splitCheck operand with
      | some (w, r) => (s.setAcc (crcAcc w)).respond .ok [boolByte (crcVerify w r)]
      | none => s.reject .badLen))

end Sys2Proof.Machine
end

