-- ==== Sys2Proof/Machine/Escaper.lean ====
section
/-!
DEFINITION. The byte escaper (spec/40_escaper.md): ESCAPE and UNESCAPE. It reads and writes no state but the parameters.
-/

namespace Sys2Proof.Machine

/-- A special byte: START, STOP or ESC (00_scope.md section 6). -/
def isSpecial (p : Params) (b : Byte) : Bool := b == p.start || b == p.stop || b == p.esc

/-- ESCAPE(b): the wire form of one byte (R34). -/
def escape (p : Params) (b : Byte) : List Byte := if isSpecial p b then [p.esc, b] else [b]

/-- E(s): the bytes of s, each escaped, in order (R36 law 2). -/
def escapeAll (p : Params) (s : List Byte) : List Byte := s.flatMap (escape p)

/-- What UNESCAPE finds at the front of a stream (R35). -/
inductive Token where
  | empty
  | incomplete
  | raw (b : Byte)
  | lit (b : Byte)
  deriving DecidableEq, Repr

/-- UNESCAPE(w): the first unit of a stream (R35). -/
def unescape (p : Params) : List Byte → Token
  | [] => .empty
  | [c] => if c = p.esc then .incomplete else .raw c
  | c :: b :: _ => if c = p.esc then .lit b else .raw c

/-- The response of UNESCAPE to a token: DATA[0] is the bytes consumed less one (R35). -/
def Token.response : Token → Response
  | .empty => ⟨.empty, []⟩
  | .incomplete => ⟨.incomplete, []⟩
  | .raw b => ⟨.ok, [0x00, b]⟩
  | .lit b => ⟨.ok, [0x01, b]⟩

/-- ESCAPE (R34). A legal operand is one byte, so its wire form is that byte's. -/
def execEscape (operand : List Byte) (s : State) : Host.Outcome State Fault Refusal :=
  .next (guardLen (.escape operand) s (s.respond .ok (escapeAll s.params operand)))

/-- UNESCAPE (R35). -/
def execUnescape (operand : List Byte) (s : State) : Host.Outcome State Fault Refusal :=
  .next (guardLen (.unescape operand) s
    (s.respond (unescape s.params operand).response.code (unescape s.params operand).response.data))

end Sys2Proof.Machine
end

