-- ==== Sys2Proof/Machine/Parity.lean ====
section
/-!
DEFINITION. The check unit's parity variant (spec/41_parity.md): PAR, PAR_COMPUTE and PAR_VERIFY. As commands they work
whatever MODE holds.
-/

namespace Sys2Proof.Machine

/-- popcount(b): the number of bits of b that are 1 (00_scope.md section 5). -/
def popcount (b : Byte) : Nat := (List.range 8).countP fun k => b.getLsbD k

/-- The number of 1 bits of a byte sequence. -/
def onesCount (s : List Byte) : Nat := (s.map popcount).sum

/-- PAR(s): the number of 1 bits in s, mod 2, as a whole byte (R37). -/
def par (s : List Byte) : Byte := BitVec.ofNat 8 (onesCount s % 2)

/-- PVERIFY(s, r): equality of whole bytes (R39). -/
def parVerify (s : List Byte) (r : Byte) : Bool := par s == r

/-- PAR_COMPUTE (R38). -/
def execParCompute (operand : List Byte) (s : State) : Host.Outcome State Fault Refusal :=
  .next (guardLen (.parCompute operand) s (s.respond .ok [par operand]))

/-- PAR_VERIFY (R39). An operand with no check byte has LEN 0, which is BADLEN. -/
def execParVerify (operand : List Byte) (s : State) : Host.Outcome State Fault Refusal :=
  .next (guardLen (.parVerify operand) s
    (match splitCheck operand with
      | some (w, r) => s.respond .ok [boolByte (parVerify w r)]
      | none => s.reject .badLen))

end Sys2Proof.Machine
end

