-- ==== Sys2Proof/Machine/Framer.lean ====
section
/-!
DEFINITION. The selection of the check variant by MODE (spec/43_framer.md R46) and the framer (R47): FRAME. The wire
form of a frame is spec/30_encoding.md R27.
-/

namespace Sys2Proof.Machine

/-- CHECK(MODE, s) (R46). -/
def check : Mode → List Byte → Byte
  | .parity, s => par s
  | .crc8, s => crc s

/-- VERIFY(MODE, s, r): whole-byte equality (R46). -/
def verify : Mode → List Byte → Byte → Bool
  | .parity, s, r => parVerify s r
  | .crc8, s, r => crcVerify s r

/-- What the LFSR accumulator holds after computing CHECK(MODE, w), from what it held before: only the CRC clocks it
(10_state.md R16). -/
def accAfter : Mode → BitVec 9 → List Byte → BitVec 9
  | .parity, a, _ => a
  | .crc8, _, w => crcAcc w

/-- The state with what computing CHECK(MODE, w) leaves in the accumulator. -/
def State.checkAcc (s : State) (w : List Byte) : State := s.setAcc (accAfter s.mode s.transient.acc w)

/-- n = max(1, ceil(L / 8)), the number of sub-frames of a payload of length L (R47). -/
def subframeCount (l : Nat) : Nat := max 1 ((l + 7) / Config.subframeMax)

/-- The sub-frames P[8j .. min(8j+8, L)) of a payload, in order (R47). -/
def subframes (payload : List Byte) : List (List Byte) :=
  (List.range (subframeCount payload.length)).map fun j =>
    (payload.drop (Config.subframeMax * j)).take Config.subframeMax

/-- frame(d, c): START, the escaped data, the escaped check byte, STOP (30_encoding.md R27). -/
def wireFrame (p : Params) (d : List Byte) (c : Byte) : List Byte :=
  [p.start] ++ escapeAll p d ++ escape p c ++ [p.stop]

/-- FRAME(P): the concatenation of the frames of its sub-frames (R47). -/
def frame (p : Params) (m : Mode) (payload : List Byte) : List Byte :=
  (subframes payload).flatMap fun w => wireFrame p w (check m w)

/-- The response FRAME gives on a core of these parameters and this MODE: the frames (R47), or BADLEN without data for a
payload longer than FRAME_PAYLOAD_MAX (30_encoding.md R31, R32). -/
def frameResponse (p : Params) (m : Mode) (payload : List Byte) : Response :=
  if legalLen (.frame payload) then ⟨.ok, frame p m payload⟩ else ⟨.badLen, []⟩

/-- What FRAME leaves in the transient registers: the last sub-frame in the working buffer (R17), and in the accumulator
what its check left there (R16). notes/assumptions/9.md. -/
def State.frameTransients (s : State) (payload : List Byte) : State :=
  let w := (subframes payload).getLastD []
  { s with transient := { s.transient with work := w } }.checkAcc w

/-- FRAME (R47). -/
def execFrame (operand : List Byte) (s : State) : Host.Outcome State Fault Refusal :=
  .next (guardLen (.frame operand) s ((s.frameTransients operand).respond .ok (frame s.params s.mode operand)))

end Sys2Proof.Machine
end

