-- ==== Sys2Proof/Machine/Deframer.lean ====
section
/-!
DEFINITION. The deframer (spec/44_deframer.md): DEFRAME, one extraction attempt on RB, and its state machine.
-/

namespace Sys2Proof.Machine

/-- What ends the scan of a DEFRAME (R50). -/
inductive ScanEvent where
  /-- SEEK_START found no START (R51). -/
  | noStart
  /-- RB ended inside the frame, or with an ESC whose literal has not arrived (R52, R53). -/
  | endOfBuffer
  /-- The tenth literal (R56). -/
  | tenthLiteral
  /-- An unescaped STOP (R54). -/
  | stopDelimiter
  deriving DecidableEq, Repr

/-- The end of a scan: what ended it, RB after the removals, and the deframer's registers (10_state.md R18). -/
structure ScanEnd where
  event : ScanEvent
  rb : Memory
  phase : Phase
  cursor : Nat
  lits : List Byte
  deriving DecidableEq, Repr

/-- SEEK_START: RB from its first START on, by comparing raw bytes; nothing is left when there is none (R51). -/
def seekStart (p : Params) (rb : Memory) : Memory := rb.dropWhile fun c => c != p.start

/-- IN_FRAME: `rb` has the frame's START at position 0, `i` is the cursor, `lits` the accumulation, and the last
argument is what the cursor has not read, RB[i ..) (R52 to R56). -/
def inFrame (p : Params) (rb : Memory) (i : Nat) (lits : List Byte) : List Byte → ScanEnd
  | [] => ⟨.endOfBuffer, rb, .inFrame, i, lits⟩
  | c :: rest =>
    if c = p.esc then
      match rest with
      | [] => ⟨.endOfBuffer, rb, .inFrame, i, lits⟩
      | b :: rest' =>
        if (lits ++ [b]).length > 9 then ⟨.tenthLiteral, rb.dropFront (i + 2), .inFrame, i + 2, lits ++ [b]⟩
        else inFrame p rb (i + 2) (lits ++ [b]) rest'
    else if c = p.stop then ⟨.stopDelimiter, rb.dropFront (i + 1), .inFrame, i, lits⟩
    else if c = p.start then inFrame p (rb.dropFront i) 1 [] rest
    else if (lits ++ [c]).length > 9 then ⟨.tenthLiteral, rb.dropFront (i + 1), .inFrame, i + 1, lits ++ [c]⟩
    else inFrame p rb (i + 1) (lits ++ [c]) rest

/-- The whole scan: SEEK_START, then IN_FRAME with the cursor at 1 and nothing accumulated (R50, R51). -/
def deframeScan (p : Params) (rb : Memory) : ScanEnd :=
  match seekStart p rb with
  | [] => ⟨.noStart, [], .seekStart, 0, []⟩
  | c :: rest => inFrame p (c :: rest) 1 [] rest

/-- RB and the deframer's registers as the scan leaves them. -/
def State.afterScan (s : State) (e : ScanEnd) : State :=
  { s with rb := e.rb, transient := { s.transient with phase := e.phase, cursor := e.cursor, lits := e.lits } }

/-- At STOP: no literal is MALFORMED (R54); else the last literal is the check byte of the ones before it, and a match is
DONE, a mismatch CORRUPT with reason CHECKSUM (R57). -/
def State.judge (s : State) (lits : List Byte) : State :=
  match splitCheck lits with
  | none => s.finish .corrupt (some .malformed) []
  | some (d, r) =>
    if verify s.mode d r then (s.checkAcc d).finish .done none d
    else (s.checkAcc d).finish .corrupt (some .checksum) []

/-- One extraction attempt (R50, R58). -/
def State.deframe (s : State) : State :=
  let e := deframeScan s.params s.rb
  match e.event with
  | .noStart => (s.afterScan e).finish .incomplete none []
  | .endOfBuffer => (s.afterScan e).finish .incomplete none []
  | .tenthLiteral => (s.afterScan e).finish .corrupt (some .oversize) []
  | .stopDelimiter => (s.afterScan e).judge e.lits

/-- DEFRAME (R50). -/
def execDeframe (operand : List Byte) (s : State) : Host.Outcome State Fault Refusal :=
  .next (guardLen (.deframe operand) s s.deframe)

end Sys2Proof.Machine
end

