-- ==== Sys2Proof/Machine/HostPort.lean ====
section
/-!
DEFINITION. The host interface (spec/45_host_interface.md): RB_APPEND, STATUS_READ and CFG_READ.
-/

namespace Sys2Proof.Machine

/-- RB_APPEND: all the bytes at the back, or OVERFLOW and none of them (R60). -/
def execRbAppend (operand : List Byte) (s : State) : Host.Outcome State Fault Refusal :=
  .next (guardLen (.rbAppend operand) s
    (if s.rb.fits s.params.rbCap operand.length then { s with rb := s.rb.append operand }.respond .ok []
     else s.reject .overflow))

/-- STATUS_READ: a read does not clear STATUS (R61). -/
def execStatusRead (operand : List Byte) (s : State) : Host.Outcome State Fault Refusal :=
  .next (guardLen (.statusRead operand) s (s.respond .ok [s.status.word]))

/-- CFG_READ (R62). -/
def execCfgRead (operand : List Byte) (s : State) : Host.Outcome State Fault Refusal :=
  .next (guardLen (.cfgRead operand) s (s.respond .ok [modeWord s.mode]))

end Sys2Proof.Machine
end

