-- ==== Sys2Proof/Machine/Dispatch.lean ====
section
/-!
DEFINITION. The meaning of each command, one arm per constructor of Instr (spec/30_encoding.md R30).
-/

namespace Sys2Proof.Machine

def exec (i : Instr) (s : State) : Host.Outcome State Fault Refusal :=
  match i with
  | .escape o => Sys2Proof.Machine.execEscape o s
  | .unescape o => Sys2Proof.Machine.execUnescape o s
  | .parCompute o => Sys2Proof.Machine.execParCompute o s
  | .parVerify o => Sys2Proof.Machine.execParVerify o s
  | .crcCompute o => Sys2Proof.Machine.execCrcCompute o s
  | .crcVerify o => Sys2Proof.Machine.execCrcVerify o s
  | .frame o => Sys2Proof.Machine.execFrame o s
  | .deframe o => Sys2Proof.Machine.execDeframe o s
  | .rbAppend o => Sys2Proof.Machine.execRbAppend o s
  | .statusRead o => Sys2Proof.Machine.execStatusRead o s
  | .cfgRead o => Sys2Proof.Machine.execCfgRead o s

end Sys2Proof.Machine
end

