-- ==== Sys2Proof/Machine/Fetch.lean ====
section
/-!
DEFINITION. Taking the next thing the host does (spec/45_host_interface.md R63, spec/70_reset_and_hazards.md R73). The
core has no program counter and no program memory (spec/10_state.md R11): the next command is the next one the host
issues, at the front of `State.pending`.
-/

namespace Sys2Proof.Machine

/-- What the front of `State.pending` holds, with the state from which it has been taken. -/
inductive Fetched where
  /-- The host has nothing to do. -/
  | idle
  /-- A stretch of the command stream with no byte (left) in it has been taken off. -/
  | blank (s : State)
  /-- A reset with its MODE_IN (R71). -/
  | reset (modeIn : Mode) (s : State)
  /-- A command with a reserved opcode (30_encoding.md R33). -/
  | reserved (s : State)
  /-- The bytes end inside a command (93_implementation_defined.md I11). -/
  | truncated
  /-- A command of the opcode map. -/
  | instr (i : Instr) (s : State)
  deriving DecidableEq, Repr

/-- What is pending when `rest` is left of a stretch of the command stream. -/
def pushRest (rest : List Byte) (events : List HostEvent) : List HostEvent :=
  if rest = [] then events else .commands rest :: events

/-- Take the next thing off the front (R73: one at a time, in the host's order). -/
def fetch (s : State) : Fetched :=
  match s.pending with
  | [] => .idle
  | .reset m :: events => .reset m { s with pending := events }
  | .commands [] :: events => .blank { s with pending := events }
  | .commands (b :: bytes) :: events =>
    match decode (b :: bytes) with
    | .truncated => .truncated
    | .reserved _ rest => .reserved { s with pending := pushRest rest events }
    | .instr i rest => .instr i { s with pending := pushRest rest events }

/-- Place the command whose bits are `w` where the next step takes it: at the front of what the host has to do. -/
def State.sendWord (s : State) (nbits w : Nat) : State :=
  { s with pending := .commands (wordBytes nbits w) :: s.pending }

end Sys2Proof.Machine
end

