-- ==== Sys2Proof/Machine/Step.lean ====
section
/-!
DEFINITION. One step: the core takes the next command or reset and performs it whole (spec/20_memory.md R24,
spec/70_reset_and_hazards.md R73, R75).
-/

namespace Sys2Proof.Machine

/-- One step. With nothing to do the core holds its state (60_exceptions.md R70; notes/assumptions/4.md). -/
def step (s : State) : Host.Outcome State Fault Refusal :=
  match fetch s with
  | .idle => .next s
  | .blank s' => .next s'
  | .reset m s' => .next (s'.resetCore m)
  | .reserved s' => .next (s'.reject .illegal)
  | .truncated => .refused .truncatedCommand
  | .instr i s' => exec i s'

/-- `s` with the command whose bits are `w` sent, so that the next step runs it. -/
def State.withFetchWord (s : State) (nbits w : Nat) : State := s.sendWord nbits w

end Sys2Proof.Machine
end

