-- ==== Sys2Proof/Machine/Assembler.lean ====
section
/-!
DEFINITION. The assembler syntax of spec/30_encoding.md R79, a text form of commands on the host's side: one command a
line, `MNEMONIC`, `MNEMONIC 0x7B`, `MNEMONIC [0x01, 0x02]` or `MNEMONIC "Hi"`, a comment from `--` on, and the
pseudo-instruction LOOPBACK. No step reads it. What the spec's examples leave open of the text is notes/assumptions/15.md.
-/

namespace Sys2Proof.Machine

/-- The names of R30 and the commands they stand for. -/
def mnemonics : List (String × (List Byte → Instr)) :=
  [("ESCAPE", .escape), ("UNESCAPE", .unescape), ("PAR_COMPUTE", .parCompute), ("PAR_VERIFY", .parVerify),
   ("CRC_COMPUTE", .crcCompute), ("CRC_VERIFY", .crcVerify), ("FRAME", .frame), ("DEFRAME", .deframe),
   ("RB_APPEND", .rbAppend), ("STATUS_READ", .statusRead), ("CFG_READ", .cfgRead)]

/-- A hexadecimal digit's value. -/
def hexDigit (c : Char) : Option Nat :=
  if '0'.toNat ≤ c.toNat ∧ c.toNat ≤ '9'.toNat then some (c.toNat - '0'.toNat)
  else if 'A'.toNat ≤ c.toNat ∧ c.toNat ≤ 'F'.toNat then some (c.toNat - 'A'.toNat + 10)
  else if 'a'.toNat ≤ c.toNat ∧ c.toNat ≤ 'f'.toNat then some (c.toNat - 'a'.toNat + 10)
  else none

/-- Text without its leading blanks. -/
def skipBlanks (cs : List Char) : List Char := cs.dropWhile fun c => c == ' '

/-- A byte written `0x` and two digits, and the text after it. -/
def byteText : List Char → Option (Byte × List Char)
  | '0' :: 'x' :: a :: b :: rest =>
    match hexDigit a, hexDigit b with
    | some h, some l => some (BitVec.ofNat 8 (16 * h + l), rest)
    | _, _ => none
  | _ => none

/-- One item of a byte list: a byte with blanks around it. -/
def itemText (cs : List Char) : Option Byte :=
  match byteText (skipBlanks cs) with
  | some (b, rest) => if skipBlanks rest = [] then some b else none
  | none => none

/-- The items of a byte list, between its brackets. -/
def listText (cs : List Char) : Option (List Byte) :=
  if skipBlanks cs = [] then some [] else (cs.splitOn ',').mapM itemText

/-- Nothing more on the line but a comment. -/
def lineOver (cs : List Char) : Bool :=
  match skipBlanks cs with
  | [] => true
  | '-' :: '-' :: _ => true
  | _ => false

/-- The text up to the closing character, and the text after it. -/
def upTo (close : Char) (cs : List Char) : Option (List Char × List Char) :=
  match cs.dropWhile fun c => c != close with
  | [] => none
  | _ :: rest => some (cs.takeWhile fun c => c != close, rest)

/-- The operand of a line, to the end of the line: none, a byte, a byte list, or the ASCII bytes of a string (R79). -/
def operandText (cs : List Char) : Option (List Byte) :=
  let found : Option (List Byte × List Char) :=
    match skipBlanks cs with
    | c :: rest =>
      if c = '[' then (upTo ']' rest).bind fun r => (listText r.1).map fun l => (l, r.2)
      else if c = Char.ofNat 34 then (upTo (Char.ofNat 34) rest).map fun r => (r.1.map fun x => BitVec.ofNat 8 x.toNat, r.2)
      else if c = '0' then (byteText (c :: rest)).map fun r => ([r.1], r.2)
      else some ([], c :: rest)
    | [] => some ([], [])
  found.bind fun r => if lineOver r.2 then some r.1 else none

/-- What a line of a program says. -/
inductive Line where
  | blank
  | command (i : Instr)
  /-- The pseudo-instruction LOOPBACK P. -/
  | loopback (payload : List Byte)
  deriving DecidableEq, Repr

/-- Read one line (R79). A name ends at the first blank, so a comment after a name needs a blank before it, and one after an
operand does not: the spec's examples leave both open (DESIGN CHOICE, notes/assumptions/15.md). -/
def readLine (cs : List Char) : Option Line :=
  if lineOver cs then some .blank
  else
    let text := skipBlanks cs
    let word := text.takeWhile fun c => c != ' '
    let rest := text.dropWhile fun c => c != ' '
    if word = "LOOPBACK".toList then (operandText rest).map .loopback
    else match mnemonics.find? fun row => row.1.toList = word with
      | some (_, make) => (operandText rest).map fun o => .command (make o)
      | none => none

/-- LOOPBACK P: FRAME P, then RB_APPEND of the DATA of FRAME's response, which is empty where that response is BADLEN
(R79, R32). -/
def loopbackCommands (p : Params) (m : Mode) (payload : List Byte) : List Instr :=
  [.frame payload, .rbAppend (frameResponse p m payload).data]

/-- The commands a line stands for, on a core of these parameters and this MODE. -/
def Line.expand (p : Params) (m : Mode) : Line → List Instr
  | .blank => []
  | .command i => [i]
  | .loopback payload => loopbackCommands p m payload

/-- The serial form of commands, one after another; none when the operand of one does not fit LEN (R29). -/
def encodeAll (is : List Instr) : Option (List Byte) :=
  if is.all Instr.wf then some (is.flatMap encode) else none

/-- The serial form of a program of lines: `[OP, LEN>>8, LEN & 0xFF] ++ operand` for each command (R79). -/
def assemble (p : Params) (m : Mode) (lines : List (List Char)) : Option (List Byte) :=
  (lines.mapM readLine).bind fun ls => encodeAll (ls.flatMap (Line.expand p m))

end Sys2Proof.Machine
end

