-- ==== Sys2Proof/Safety.lean ====
section
/-!
DEFINITION. The invariant of the core and the words the statements are written in: what a wire unit is
(spec/30_encoding.md R28), a state up to its transient registers (spec/10_state.md R10), and commands run one after another.
-/

namespace Sys2Proof.Machine

/-- REASON is non-zero if and only if OUTCOME is CORRUPT (R13). -/
def Status.legal (t : Status) : Prop := t.reason.isSome = true ↔ t.outcome = some .corrupt

/-- The invariant of the core: legal parameters (R2, R8), RB within its capacity (R15), a legal STATUS (R13), and the
transient registers within their ranges, bit 8 of the accumulator clear between clocks (R16, R17, R18). -/
structure State.Inv (s : State) : Prop where
  params : s.params.Wf
  capacity : s.rb.wf s.params.rbCap = true
  status : s.status.legal
  acc : s.transient.acc.getLsbD 8 = false
  work : s.transient.work.length ≤ 8
  lits : s.transient.lits.length ≤ 10

/-- The same state with other values in the transient registers. -/
def State.withTransient (s : State) (tr : Transient) : State := { s with transient := tr }

/-- `s` after one more response, with this RB and this STATUS, all else as before. -/
def State.answered (s : State) (rb : Memory) (t : Status) (c : ResponseCode) (d : List Byte) : State :=
  { s with rb := rb, status := t, responses := s.responses ++ [⟨c, d⟩] }

/-- A wire unit: a plain byte, or ESC and the byte it escapes (30_encoding.md R28). -/
inductive WireUnit where
  | plain (b : Byte)
  | escaped (b : Byte)
  deriving DecidableEq, Repr

/-- The literal byte a unit stands for (R28). -/
def WireUnit.literal : WireUnit → Byte
  | .plain b => b
  | .escaped b => b

/-- The bytes of a unit on the wire (R28). -/
def WireUnit.bytes (p : Params) : WireUnit → List Byte
  | .plain b => [b]
  | .escaped b => [p.esc, b]

/-- A plain byte is any byte other than START, STOP and ESC (R28). -/
def WireUnit.ok (p : Params) : WireUnit → Prop
  | .plain b => b ≠ p.start ∧ b ≠ p.stop ∧ b ≠ p.esc
  | .escaped _ => True

/-- The wire bytes of a sequence of units. -/
def unitBytes (p : Params) (us : List WireUnit) : List Byte := us.flatMap (WireUnit.bytes p)

/-- The literals of a sequence of units. -/
def literals (us : List WireUnit) : List Byte := us.map WireUnit.literal

/-- The literals of a stream decoded unit by unit from the front with UNESCAPE, at most `fuel` of them; none when it ends
inside a unit (40_escaper.md R36 law 2). -/
def decodeUnits (p : Params) : Nat → List Byte → Option (List Byte)
  | 0, w => if w = [] then some [] else none
  | fuel + 1, w =>
    match unescape p w with
    | .empty => some []
    | .incomplete => none
    | .raw b => (decodeUnits p fuel (w.drop 1)).map (b :: ·)
    | .lit b => (decodeUnits p fuel (w.drop 2)).map (b :: ·)

/-- A unit of the same shape whose literal has bit `k` flipped (44_deframer.md R59 law 6). -/
def WireUnit.flip (k : Nat) : WireUnit → WireUnit
  | .plain b => .plain (b ^^^ 1#8 <<< k)
  | .escaped b => .escaped (b ^^^ 1#8 <<< k)

/-- The least and the greatest legal LEN of each opcode, as the table of 30_encoding.md R31 has them. -/
def lenRange : Instr → Nat × Nat
  | .escape _ => (1, 1)
  | .unescape _ => (0, 2)
  | .parCompute _ => (0, 8)
  | .parVerify _ => (1, 9)
  | .crcCompute _ => (0, 8)
  | .crcVerify _ => (1, 9)
  | .frame _ => (0, 26208)
  | .deframe _ => (0, 0)
  | .rbAppend _ => (0, 65535)
  | .statusRead _ => (0, 0)
  | .cfgRead _ => (0, 0)

/-- The codes each command may answer besides BADLEN, as the table of 30_encoding.md R32 has them. -/
def answerCodes : Instr → List ResponseCode
  | .unescape _ => [.ok, .incomplete, .empty]
  | .deframe _ => [.done, .incomplete, .corrupt]
  | .rbAppend _ => [.ok, .overflow]
  | .escape _ => [.ok]
  | .parCompute _ => [.ok]
  | .parVerify _ => [.ok]
  | .crcCompute _ => [.ok]
  | .crcVerify _ => [.ok]
  | .frame _ => [.ok]
  | .statusRead _ => [.ok]
  | .cfgRead _ => [.ok]

/-- Commands run one after another, stopping at the first that gives no next state. -/
def execAll : List Instr → State → Host.Outcome State Fault Refusal
  | [], s => .next s
  | i :: is, s =>
    match exec i s with
    | .next t => execAll is t
    | .fault r => .fault r
    | .refused r => .refused r

/-- `k` steps, stopping at the first that gives no next state. -/
def stepMany : Nat → State → Host.Outcome State Fault Refusal
  | 0, s => .next s
  | k + 1, s =>
    match step s with
    | .next t => stepMany k t
    | .fault r => .fault r
    | .refused r => .refused r

end Sys2Proof.Machine
end

