-- ==== Sys2Proof/Certificates/Slice0/Obligations.lean ====
section
/-!
DEFINITION. The statements about the core. `s.answered rb t c d` is `s` with receive buffer `rb`, STATUS `t` and one more
response (code `c`, data `d`), all else as before; `s.withTransient tr` is `s` with other values in the transient
registers, which spec/93_implementation_defined.md I8 leaves open between commands.
-/

open Sys2Proof Sys2Proof.Machine

/-! ### Encoding, decoding and the step -/

/-- Every command that fits its LEN field decodes to itself, whatever follows it (30_encoding.md section 2). -/
def Obligations.DecodeOfEncode : Prop :=
  ∀ (i : Instr) (rest : List Byte), i.wf = true → decode (encode i ++ rest) = .instr i rest

/-- What decodes to a command is that command's serial form and what follows it (30_encoding.md section 2). -/
def Obligations.EncodeOfDecode : Prop :=
  ∀ (bytes rest : List Byte) (i : Instr), decode bytes = .instr i rest → i.wf = true ∧ encode i ++ rest = bytes

/-- Serial forms written out in the spec decode to the commands they stand for (V-ES-1, V-UN-4, V-PC-4, V-CV-2, V-FR-2,
V-DF-7, V-HI-1, V-HI-5, V-HI-7, V-RS-2), and a string that ends inside a command decodes to none
(93_implementation_defined.md I11, notes/assumptions/5.md). -/
def Obligations.SpecWordsDecode : Prop :=
  decode [0x01, 0x00, 0x01, 0x7B] = .instr (.escape [0x7B]) [] ∧
  decode [0x02, 0x00, 0x02, 0x5C, 0x7B] = .instr (.unescape [0x5C, 0x7B]) [] ∧
  decode [0x03, 0x00, 0x03, 0x01, 0x02, 0x03] = .instr (.parCompute [0x01, 0x02, 0x03]) [] ∧
  decode [0x06, 0x00, 0x04, 0x01, 0x02, 0x03, 0x78] = .instr (.crcVerify [0x01, 0x02, 0x03, 0x78]) [] ∧
  decode [0x07, 0x00, 0x03, 0x01, 0x02, 0x03] = .instr (.frame [0x01, 0x02, 0x03]) [] ∧
  decode [0x08, 0x00, 0x00, 0x0A, 0x00, 0x00] = .instr (.deframe []) [0x0A, 0x00, 0x00] ∧
  decode [0x09, 0x00, 0x02, 0x7B, 0x41] = .instr (.rbAppend [0x7B, 0x41]) [] ∧
  decode [0x0A, 0x00, 0x00] = .instr (.statusRead []) [] ∧
  decode [0x0B, 0x00, 0x00] = .instr (.cfgRead []) [] ∧
  decode [0x0C, 0x00, 0x01, 0x55] = .reserved 0x0C [] ∧
  decode [0x01, 0x00, 0x02, 0x41] = .truncated

/-- When the bytes the host has sent begin with a command, the step is that command's meaning on the state from which its
bytes have been taken. The list of what the host has still to do is the model's (notes/assumptions/3.md). -/
def Obligations.StepRunsDecodedCommand : Prop :=
  ∀ (s : State) (bytes rest : List Byte) (i : Instr) (events : List HostEvent),
    s.pending = .commands bytes :: events → decode bytes = .instr i rest →
      step s = exec i { s with pending := if rest = [] then events else .commands rest :: events }

/-- The steps that run no command: with nothing to do the core holds its state; an empty stretch of commands is taken off;
a reset is taken off, and leaves what the host has still to do and the responses given. The list and these steps are the
model's (notes/assumptions/3.md, 4.md, 10.md, 11.md). -/
def Obligations.StepsOfTheHostList : Prop :=
  (∀ s : State, s.pending = [] → step s = .next s) ∧
  (∀ (s : State) (events : List HostEvent), s.pending = .commands [] :: events →
    step s = .next { s with pending := events }) ∧
  (∀ (s : State) (m : Mode) (events : List HostEvent), s.pending = .reset m :: events →
    ∃ t, step s = .next t ∧ t.pending = events ∧ t.responses = s.responses)

/-- A step has a next state, except when the bytes the host sent end inside a command, and then it is refused by name:
no command ever stops the core. That such bytes are refused, whatever the host does next, so that a command cut in two is not
joined, is the model's choice (93_implementation_defined.md I11, notes/assumptions/5.md); so are the list of what the host has
still to do and its idle step (notes/assumptions/3.md, 4.md). -/
def Obligations.OnlyTruncatedCommandsStop : Prop :=
  ∀ s : State,
    (∀ bytes events, s.pending = .commands bytes :: events → bytes ≠ [] → decode bytes ≠ .truncated) ∧
        (∃ t, step s = .next t) ∨
    (∃ bytes events, s.pending = .commands bytes :: events ∧ bytes ≠ [] ∧ decode bytes = .truncated) ∧
        step s = .refused .truncatedCommand

/-! ### The order of checks, and what every command answers -/

/-- A reserved opcode answers ILLEGAL, a LEN outside its opcode's range answers BADLEN, both without a state change,
and any other command performs its rule, which answers neither (30_encoding.md section 2, reserved opcodes and illegal
forms). That a reserved opcode takes its LEN operand bytes with it is inferred (notes/assumptions/7.md), and the list they are
taken from is the model's (notes/assumptions/3.md). -/
def Obligations.CommandChecksInOrder : Prop :=
  (∀ (s : State) (op hi lo : Byte) (operand rest : List Byte) (events : List HostEvent),
    (op.toNat = 0 ∨ 0x0C ≤ op.toNat) → operand.length = hi.toNat * 256 + lo.toNat →
      s.pending = .commands (op :: hi :: lo :: (operand ++ rest)) :: events →
        step s = .next ({ s with pending := if rest = [] then events else .commands rest :: events }.answered
          s.rb s.status .illegal [])) ∧
  (∀ (i : Instr) (s : State), i.operand.length < (lenRange i).1 ∨ (lenRange i).2 < i.operand.length →
    exec i s = .next (s.answered s.rb s.status .badLen [])) ∧
  (∀ (i : Instr) (s : State), (lenRange i).1 ≤ i.operand.length → i.operand.length ≤ (lenRange i).2 →
    ∃ t r, exec i s = .next t ∧ t.responses = s.responses ++ [r] ∧ r.code ≠ .badLen ∧ r.code ≠ .illegal)

/-- Every command, whatever its operand, answers with exactly one response, whose code is BADLEN or one R32 gives its
opcode, and an error response has no data. -/
def Obligations.EveryCommandAnswersOnce : Prop :=
  ∀ (i : Instr) (s : State), ∃ t r, exec i s = .next t ∧ t.responses = s.responses ++ [r] ∧
    (r.code = .badLen ∨ r.code ∈ answerCodes i) ∧ (r.code = .badLen ∨ r.code = .overflow → r.data = [])

/-- An error response, BADLEN, OVERFLOW or ILLEGAL, has no data and changes no state: nothing but the response is new
(60_exceptions.md, Causes and codes). ILLEGAL is what a step answers to a reserved opcode, whose bytes it takes off the
model's list of what the host has still to do (notes/assumptions/3.md, 7.md). -/
def Obligations.ErrorResponsesChangeNothing : Prop :=
  (∀ (i : Instr) (s t : State) (r : Response), exec i s = .next t → t.responses = s.responses ++ [r] →
    (r.code = .badLen ∨ r.code = .overflow ∨ r.code = .illegal) →
      t = { s with responses := s.responses ++ [⟨r.code, []⟩] }) ∧
  (∀ (s : State) (bytes rest : List Byte) (op : Byte) (events : List HostEvent),
    s.pending = .commands bytes :: events → decode bytes = .reserved op rest →
      step s = .next { s with
        pending := if rest = [] then events else .commands rest :: events
        responses := s.responses ++ [⟨.illegal, []⟩] })

/-- Every response of a command fits the 16-bit RLEN field, and its serial form is its code's byte, its length most
significant byte first, and its data; the byte of each code is the one of the table of response codes; and the serial form
of an error response is that byte and two zeros (30_encoding.md section 2). -/
def Obligations.ResponsesFitRlen : Prop :=
  (∀ (i : Instr) (s t : State) (r : Response), exec i s = .next t → t.responses = s.responses ++ [r] →
    r.data.length ≤ 65535 ∧
    ∃ hi lo : Byte, r.bytes = r.code.byte :: hi :: lo :: r.data ∧ hi.toNat * 256 + lo.toNat = r.data.length) ∧
  (ResponseCode.ok.byte = 0x00 ∧ ResponseCode.done.byte = 0x01 ∧ ResponseCode.incomplete.byte = 0x02 ∧
    ResponseCode.corrupt.byte = 0x03 ∧ ResponseCode.empty.byte = 0x04 ∧ ResponseCode.overflow.byte = 0x0E ∧
    ResponseCode.badLen.byte = 0x0F ∧ ResponseCode.illegal.byte = 0xFF) ∧
  (Response.bytes ⟨.overflow, []⟩ = [0x0E, 0x00, 0x00] ∧ Response.bytes ⟨.badLen, []⟩ = [0x0F, 0x00, 0x00] ∧
    Response.bytes ⟨.illegal, []⟩ = [0xFF, 0x00, 0x00])

/-! ### The escaper -/

/-- R34: ESCAPE of one byte, special or not; any other operand answers BADLEN; no state is written; its serial form;
and 253 of the 256 bytes escape to themselves. -/
def Obligations.EscapeResult : Prop :=
  (∀ (s : State) (operand : List Byte), exec (.escape operand) s = .next (match operand with
    | [b] => s.answered s.rb s.status .ok
        (if b = s.params.start ∨ b = s.params.stop ∨ b = s.params.esc then [s.params.esc, b] else [b])
    | _ => s.answered s.rb s.status .badLen [])) ∧
  (∀ b : Byte, encode (.escape [b]) = [0x01, 0x00, 0x01, b]) ∧
  (∀ p : Params, p.Wf → ((List.range 256).countP fun n => escape p (BitVec.ofNat 8 n) == [BitVec.ofNat 8 n]) = 253)

/-- R35: UNESCAPE of no byte, of a lone ESC, of an escape pair and of a plain byte; a longer operand answers BADLEN; no
state is written; its serial form. -/
def Obligations.UnescapeResult : Prop :=
  (∀ (s : State) (w : List Byte), exec (.unescape w) s = .next (match w with
    | [] => s.answered s.rb s.status .empty []
    | [c] => if c = s.params.esc then s.answered s.rb s.status .incomplete []
        else s.answered s.rb s.status .ok [0x00, c]
    | [c, b] => if c = s.params.esc then s.answered s.rb s.status .ok [0x01, b]
        else s.answered s.rb s.status .ok [0x00, c]
    | _ => s.answered s.rb s.status .badLen [])) ∧
  (∀ w : List Byte, w.length ≤ 2 → encode (.unescape w) = [0x02, 0x00, BitVec.ofNat 8 w.length] ++ w)

/-- The laws of the escaper: one unit comes back from its wire form whatever follows it, a whole stream comes back unit
by unit, and the length of the wire form (40_escaper.md, Laws of the escaper, laws 1, 2 and 4). -/
def Obligations.EscaperRoundTrip : Prop :=
  ∀ (p : Params),
    (∀ (b : Byte) (rest : List Byte), unescape p (escape p b ++ rest) =
      (if b = p.start ∨ b = p.stop ∨ b = p.esc then .lit b else .raw b)) ∧
    (∀ s : List Byte, decodeUnits p s.length (escapeAll p s) = some s) ∧
    (∀ s : List Byte, (escapeAll p s).length =
      s.length + s.countP fun b => b == p.start || b == p.stop || b == p.esc)

/-! ### The check unit -/

/-- R37: PAR(s) is the number of 1 bits in s, mod 2, as a whole byte. -/
def Obligations.ParityCountsOnes : Prop :=
  ∀ s : List Byte, (par s).toNat = ((s.flatMap bitsOf).count true) % 2

/-- R38: PAR_COMPUTE of a sub-frame of at most 8 bytes in either MODE, and BADLEN for a longer one. -/
def Obligations.ParComputeResult : Prop :=
  (∀ (s : State) (w : List Byte), exec (.parCompute w) s = .next (if w.length ≤ 8
    then s.answered s.rb s.status .ok [par w] else s.answered s.rb s.status .badLen [])) ∧
  (∀ w : List Byte, w.length ≤ 8 → encode (.parCompute w) = [0x03, 0x00, BitVec.ofNat 8 w.length] ++ w) ∧
  par [] = 0x00 ∧ par (List.replicate 8 0x00) = 0x00 ∧ par (List.replicate 8 0xFF) = 0x00 ∧ par [0xFF] = 0x00 ∧
  par [0x01] = 0x01

/-- R39: PAR_VERIFY compares all 8 bits of the received byte with the parity of the bytes before it; no check byte, or more
than 8 bytes before it, is BADLEN. -/
def Obligations.ParVerifyResult : Prop :=
  (∀ (s : State) (w : List Byte) (r : Byte), w.length ≤ 8 →
    exec (.parVerify (w ++ [r])) s = .next (s.answered s.rb s.status .ok [if par w = r then 0x01 else 0x00])) ∧
  (∀ (s : State) (o : List Byte), o.length = 0 ∨ 9 < o.length →
    exec (.parVerify o) s = .next (s.answered s.rb s.status .badLen [])) ∧
  (∀ (w : List Byte) (r : Byte), w.length ≤ 8 →
    encode (.parVerify (w ++ [r])) = [0x04, 0x00, BitVec.ofNat 8 (w.length + 1)] ++ w ++ [r]) ∧
  (∀ (w : List Byte) (r : Byte), r ≠ 0x00 → r ≠ 0x01 → par w ≠ r)

/-- Parity detects exactly the flip patterns of odd weight (41_parity.md, Laws of parity, laws 1 and 3). -/
def Obligations.ParityDetectsOddFlips : Prop :=
  (∀ s e : List Byte, s.length = e.length →
    (parVerify (List.zipWith (· ^^^ ·) s e) (par s) = false ↔ ((e.flatMap bitsOf).count true) % 2 = 1)) ∧
  (∀ s t : List Byte, par (s ++ t) = par s ^^^ par t)

/-- R41: one LFSR clock on 8 bits of state, in exact arithmetic, and bit 8 of the accumulator is clear after it. -/
def Obligations.LfsrClockStep : Prop :=
  ∀ (a : Byte) (bit : Bool),
    (crcStep a bit).toNat = (if 256 ≤ 2 * a.toNat + bit.toNat then (2 * a.toNat + bit.toNat) ^^^ 0x1D5
      else 2 * a.toNat + bit.toNat) ∧
    lfsrClock (a.setWidth 9) bit = (crcStep a bit).setWidth 9

/-- R42: the CRC starts at 0 and clocks in the bytes in order, the bits of each byte most significant first, with
nothing before the first bit or after the last. -/
def Obligations.CrcClocksEveryBit : Prop :=
  crc [] = 0x00 ∧
  (∀ (s : List Byte) (b : Byte),
    crc (s ++ [b]) = [7, 6, 5, 4, 3, 2, 1, 0].foldl (fun acc k => crcStep acc (b.getLsbD k)) (crc s)) ∧
  crc (List.replicate 8 0x00) = 0x00

/-- R43: CRC_COMPUTE of a sub-frame of at most 8 bytes in either MODE, writing no state but the transient accumulator, and
BADLEN for a longer one. -/
def Obligations.CrcComputeResult : Prop :=
  (∀ (s : State) (w : List Byte), w.length ≤ 8 →
    ∃ tr, exec (.crcCompute w) s = .next ((s.answered s.rb s.status .ok [crc w]).withTransient tr)) ∧
  (∀ (s : State) (w : List Byte), 8 < w.length →
    exec (.crcCompute w) s = .next (s.answered s.rb s.status .badLen [])) ∧
  (∀ w : List Byte, w.length ≤ 8 → encode (.crcCompute w) = [0x05, 0x00, BitVec.ofNat 8 w.length] ++ w) ∧
  (∀ n : Nat, crc (List.replicate n 0x00) = 0x00) ∧ (∀ b : Byte, crc [b] = b) ∧
  crc (List.replicate 8 0xFF) = 0x8D ∧ crc [0x01, 0x00] = 0xD5

/-- R44: CRC_VERIFY compares the received byte with the CRC of the bytes before it, the received byte not among them; no
check byte, or more than 8 bytes before it, is BADLEN. -/
def Obligations.CrcVerifyResult : Prop :=
  (∀ (s : State) (w : List Byte) (r : Byte), w.length ≤ 8 →
    ∃ tr, exec (.crcVerify (w ++ [r])) s =
      .next ((s.answered s.rb s.status .ok [if crc w = r then 0x01 else 0x00]).withTransient tr)) ∧
  (∀ (s : State) (o : List Byte), o.length = 0 ∨ 9 < o.length →
    exec (.crcVerify o) s = .next (s.answered s.rb s.status .badLen [])) ∧
  (∀ (w : List Byte) (r : Byte), w.length ≤ 8 →
    encode (.crcVerify (w ++ [r])) = [0x06, 0x00, BitVec.ofNat 8 (w.length + 1)] ++ w ++ [r]) ∧
  (∀ b r : Byte, crc [b] = r ↔ r = b)

/-- The bit-serial CRC is the remainder of the message polynomial by the generator (42_crc8.md, Laws of the CRC, law 1). -/
def Obligations.CrcIsPolynomialRemainder : Prop :=
  ∀ s : List Byte,
    (bitsOf (crc s)).foldl
        (fun (q : Polynomial (ZMod 2)) b => q * Polynomial.X + Polynomial.C (if b then 1 else 0)) 0 =
      (s.flatMap bitsOf).foldl
        (fun (q : Polynomial (ZMod 2)) b => q * Polynomial.X + Polynomial.C (if b then 1 else 0)) 0 %ₘ
        (Polynomial.X ^ 8 + Polynomial.X ^ 7 + Polynomial.X ^ 6 + Polynomial.X ^ 4 + Polynomial.X ^ 2 + 1)

/-- The CRC of a bytewise XOR, and the byte-wise form (42_crc8.md, Laws of the CRC, laws 3 and 4). -/
def Obligations.CrcIsLinear : Prop :=
  (∀ s e : List Byte, s.length = e.length → crc (List.zipWith (· ^^^ ·) s e) = crc s ^^^ crc e) ∧
  (∀ (s : List Byte) (b : Byte), crc (s ++ [b]) = crc [crc s, 0x00] ^^^ b)

/-- Flipping one bit of a message, of any length, changes its CRC (42_crc8.md, Laws of the CRC, law 5). -/
def Obligations.CrcDetectsSingleBitErrors : Prop :=
  ∀ (s : List Byte) (j k : Nat), j < s.length → k < 8 → crc (s.modify j (· ^^^ 1#8 <<< k)) ≠ crc s

/-- Leading zero bytes leave the CRC as it is (42_crc8.md, Laws of the CRC, law 6). -/
def Obligations.CrcIgnoresLeadingZeros : Prop :=
  ∀ (n : Nat) (s : List Byte), crc (List.replicate n 0x00 ++ s) = crc s

/-! ### The framer -/

/-- R46: CHECK and VERIFY are the parity ones or the CRC ones as MODE says, verified by whole-byte equality. -/
def Obligations.ModeSelectsCheck : Prop :=
  ∀ (s : List Byte) (r : Byte),
    check .parity s = par s ∧ check .crc8 s = crc s ∧ (∀ m, verify m s r = true ↔ check m s = r)

/-- R47: FRAME cuts the payload into max(1, ceil(L/8)) sub-frames of at most 8 bytes and wraps each as START, its escaped
bytes, the escaped check byte over its literal bytes, STOP; it writes nothing but transient registers; a payload of more
than 26208 bytes is BADLEN; an empty payload is one frame with the check byte 0x00. -/
def Obligations.FrameResult : Prop :=
  (∀ (s : State) (payload : List Byte), payload.length ≤ 26208 →
    ∃ tr, exec (.frame payload) s = .next ((s.answered s.rb s.status .ok
      ((List.range (max 1 ((payload.length + 7) / 8))).flatMap fun j =>
        let w := (payload.drop (8 * j)).take 8
        [s.params.start] ++ w.flatMap (escape s.params) ++ escape s.params (check s.mode w) ++
          [s.params.stop])).withTransient tr)) ∧
  (∀ (s : State) (payload : List Byte), 26208 < payload.length →
    exec (.frame payload) s = .next (s.answered s.rb s.status .badLen [])) ∧
  (∀ (p : Params) (m : Mode), frame p m [] = [p.start] ++ escape p 0x00 ++ [p.stop]) ∧
  (∀ payload : List Byte, payload.length ≤ 26208 →
    encode (.frame payload) = 0x07 :: BitVec.ofNat 8 (payload.length / 256) :: BitVec.ofNat 8 payload.length :: payload)

/-- The size of FRAME's output, for a payload of any length, and that the longest legal one fits RLEN (43_framer.md, Laws
of the framer; 30_encoding.md section 2, on FRAME_PAYLOAD_MAX). -/
def Obligations.FrameSize : Prop :=
  ∀ (p : Params) (m : Mode) (payload : List Byte),
    payload.length + 3 * max 1 ((payload.length + 7) / 8) ≤ (frame p m payload).length ∧
    (frame p m payload).length ≤ 2 * payload.length + 4 * max 1 ((payload.length + 7) / 8) ∧
    (payload.length ≤ 26208 → (frame p m payload).length ≤ 65520)

/-- A payload may be framed in pieces cut at a multiple of 8 (43_framer.md, Laws of the framer). -/
def Obligations.FrameSplitsAtMultiplesOfEight : Prop :=
  ∀ (p : Params) (m : Mode) (p1 p2 : List Byte), p1.length % 8 = 0 → p1 ≠ [] → p2 ≠ [] →
    frame p m (p1 ++ p2) = frame p m p1 ++ frame p m p2

/-! ### The deframer -/

/-- R51: with no START in RB, DEFRAME empties it and answers INCOMPLETE; else the bytes before the first START count for
nothing, an ESC among them included. -/
def Obligations.SeekStartDropsGarbage : Prop :=
  (∀ s : State, (∀ b ∈ s.rb, b ≠ s.params.start) →
    ∃ tr, exec (.deframe []) s = .next ((s.answered [] ⟨some .incomplete, none⟩ .incomplete []).withTransient tr)) ∧
  (∀ (s : State) (g rest : List Byte), (∀ b ∈ g, b ≠ s.params.start) → s.rb = g ++ s.params.start :: rest →
    ∃ t tr, exec (.deframe []) { s with rb := s.params.start :: rest } = .next t ∧
      exec (.deframe []) s = .next (t.withTransient tr))

/-- R52: when RB ends inside a frame, DEFRAME answers INCOMPLETE and RB keeps everything from the frame's START on. -/
def Obligations.OpenFrameIsIncomplete : Prop :=
  ∀ (s : State) (g : List Byte) (us : List WireUnit), s.params.Wf → (∀ b ∈ g, b ≠ s.params.start) →
    (∀ u ∈ us, u.ok s.params) → us.length ≤ 9 → s.rb = g ++ s.params.start :: unitBytes s.params us →
      ∃ tr, exec (.deframe []) s = .next ((s.answered (s.params.start :: unitBytes s.params us)
        ⟨some .incomplete, none⟩ .incomplete []).withTransient tr)

/-- R53: an ESC and the byte after it are one unit whose literal is that byte, whatever it is, so a frame means the same
however its literals are escaped; and an ESC that ends RB is INCOMPLETE, with the frame and its ESC kept. -/
def Obligations.EscapeUnitIsOneLiteral : Prop :=
  (∀ (s : State) (us vs : List WireUnit) (rest : List Byte), s.params.Wf → (∀ u ∈ us, u.ok s.params) →
    (∀ v ∈ vs, v.ok s.params) → literals us = literals vs → us.length ≤ 9 →
      ∃ rb t c d tr tr',
        exec (.deframe []) { s with rb := s.params.start :: (unitBytes s.params us ++ s.params.stop :: rest) } =
          .next ((s.answered rb t c d).withTransient tr) ∧
        exec (.deframe []) { s with rb := s.params.start :: (unitBytes s.params vs ++ s.params.stop :: rest) } =
          .next ((s.answered rb t c d).withTransient tr')) ∧
  (∀ (s : State) (g : List Byte) (us : List WireUnit), s.params.Wf → (∀ b ∈ g, b ≠ s.params.start) →
    (∀ u ∈ us, u.ok s.params) → us.length ≤ 9 →
      s.rb = g ++ s.params.start :: (unitBytes s.params us ++ [s.params.esc]) →
        ∃ tr, exec (.deframe []) s = .next ((s.answered (s.params.start :: (unitBytes s.params us ++ [s.params.esc]))
          ⟨some .incomplete, none⟩ .incomplete []).withTransient tr))

/-- R54 and R57: an unescaped STOP ends the frame, which leaves RB with its STOP: no literal is CORRUPT MALFORMED; else the
last literal is the check byte of the others, a match is DONE with those others, a mismatch CORRUPT CHECKSUM. -/
def Obligations.StopEndsFrame : Prop :=
  ∀ (s : State) (g rest : List Byte), s.params.Wf → (∀ b ∈ g, b ≠ s.params.start) →
    (s.rb = g ++ s.params.start :: s.params.stop :: rest →
      ∃ tr, exec (.deframe []) s =
        .next ((s.answered rest ⟨some .corrupt, some .malformed⟩ .corrupt []).withTransient tr)) ∧
    (∀ (ds : List WireUnit) (r : WireUnit), (∀ u ∈ ds, u.ok s.params) → r.ok s.params → ds.length ≤ 8 →
      s.rb = g ++ s.params.start :: (unitBytes s.params (ds ++ [r]) ++ s.params.stop :: rest) →
        ∃ tr, exec (.deframe []) s = .next ((if check s.mode (literals ds) = r.literal
          then s.answered rest ⟨some .done, none⟩ .done (literals ds)
          else s.answered rest ⟨some .corrupt, some .checksum⟩ .corrupt []).withTransient tr))

/-- R55: an unescaped START inside a frame drops the open frame without an outcome of its own, and the same command goes on
as if RB began with the new START. -/
def Obligations.StartInsideFrameResynchronises : Prop :=
  ∀ (s : State) (g rest : List Byte) (us : List WireUnit), s.params.Wf → (∀ b ∈ g, b ≠ s.params.start) →
    (∀ u ∈ us, u.ok s.params) → us.length ≤ 9 →
      s.rb = g ++ s.params.start :: (unitBytes s.params us ++ s.params.start :: rest) →
        ∃ t tr, exec (.deframe []) { s with rb := s.params.start :: rest } = .next t ∧
          exec (.deframe []) s = .next (t.withTransient tr)

/-- R56: the tenth literal, plain or escaped, ends the command CORRUPT OVERSIZE; the frame leaves RB up to and with that
literal's unit, and what follows stays. -/
def Obligations.TenthLiteralIsOversize : Prop :=
  ∀ (s : State) (g rest : List Byte) (us : List WireUnit), s.params.Wf → (∀ b ∈ g, b ≠ s.params.start) →
    (∀ u ∈ us, u.ok s.params) → us.length = 10 →
      s.rb = g ++ s.params.start :: (unitBytes s.params us ++ rest) →
        ∃ tr, exec (.deframe []) s =
          .next ((s.answered rest ⟨some .corrupt, some .oversize⟩ .corrupt []).withTransient tr)

/-- R58: every DEFRAME with no operand ends in exactly one finish, one of the five rows of the table, with that row's
STATUS and code; any operand is BADLEN. -/
def Obligations.DeframeFinishesOnce : Prop :=
  (∀ s : State, ∃ rb t c d tr, exec (.deframe []) s = .next ((s.answered rb t c d).withTransient tr) ∧
    ((t = ⟨some .done, none⟩ ∧ t.word = 0x01 ∧ c = .done ∧ c.byte = 0x01 ∧ d.length ≤ 8) ∨
     (t = ⟨some .incomplete, none⟩ ∧ t.word = 0x02 ∧ c = .incomplete ∧ c.byte = 0x02 ∧ d = []) ∨
     (t = ⟨some .corrupt, some .malformed⟩ ∧ t.word = 0x07 ∧ c = .corrupt ∧ c.byte = 0x03 ∧ d = []) ∨
     (t = ⟨some .corrupt, some .checksum⟩ ∧ t.word = 0x0B ∧ c = .corrupt ∧ c.byte = 0x03 ∧ d = []) ∨
     (t = ⟨some .corrupt, some .oversize⟩ ∧ t.word = 0x0F ∧ c = .corrupt ∧ c.byte = 0x03 ∧ d = []))) ∧
  (∀ (s : State) (o : List Byte), o ≠ [] → exec (.deframe o) s = .next (s.answered s.rb s.status .badLen []))

/-- What an INCOMPLETE leaves in RB: nothing, or an open frame of at most 9 units and perhaps an ESC, at most 20 bytes, so
that one more byte always fits; and the next DEFRAME is INCOMPLETE again with RB unchanged (44_deframer.md, Laws of the
deframer, laws 2 and 4; 70_reset_and_hazards.md, Hazards, items 1 and 2). -/
def Obligations.IncompleteResidueIsBounded : Prop :=
  ∀ s t : State, s.params.Wf → exec (.deframe []) s = .next t → t.status.outcome = some .incomplete →
    (t.rb = [] ∨ ∃ (us : List WireUnit) (tail : List Byte), (∀ u ∈ us, u.ok s.params) ∧ us.length ≤ 9 ∧
      (tail = [] ∨ tail = [s.params.esc]) ∧ t.rb = s.params.start :: (unitBytes s.params us ++ tail)) ∧
    t.rb.length ≤ 20 ∧
    (∀ b : Byte, exec (.rbAppend [b]) t = .next (t.answered (t.rb ++ [b]) t.status .ok [])) ∧
    (∃ tr, exec (.deframe []) t = .next ((t.answered t.rb ⟨some .incomplete, none⟩ .incomplete []).withTransient tr))

/-- DONE and CORRUPT make progress: at least 2 bytes leave the front of RB (44_deframer.md, Laws of the deframer, law 4). -/
def Obligations.DeframeMakesProgress : Prop :=
  ∀ s t : State, exec (.deframe []) s = .next t →
    (t.status.outcome = some .done ∨ t.status.outcome = some .corrupt) → t.rb.length + 2 ≤ s.rb.length

/-- A damaged frame with no STOP, after garbage, is lost, and the same DEFRAME returns the good frame behind it
(44_deframer.md, Laws of the deframer, law 7). -/
def Obligations.DamagedFrameThenGoodFrame : Prop :=
  ∀ (s : State) (g : List Byte) (us : List WireUnit) (w : List Byte), s.params.Wf → (∀ b ∈ g, b ≠ s.params.start) →
    (∀ u ∈ us, u.ok s.params) → us.length ≤ 9 → w.length ≤ 8 →
      s.rb = g ++ [s.params.start] ++ unitBytes s.params us ++ frame s.params s.mode w →
        ∃ tr, exec (.deframe []) s = .next ((s.answered [] ⟨some .done, none⟩ .done w).withTransient tr)

/-- One flipped bit in one literal of a well-formed frame, the units keeping their shape, is CORRUPT CHECKSUM in both modes
(44_deframer.md, Laws of the deframer, law 6). -/
def Obligations.SingleBitCorruptionIsDetected : Prop :=
  ∀ (s : State) (ds : List WireUnit) (r : WireUnit) (rest : List Byte) (j k : Nat), s.params.Wf →
    (∀ u ∈ ds ++ [r], u.ok s.params) → ds.length ≤ 8 → check s.mode (literals ds) = r.literal →
    j ≤ ds.length → k < 8 → (∀ u ∈ (ds ++ [r]).modify j (WireUnit.flip k), u.ok s.params) →
    s.rb = s.params.start :: (unitBytes s.params ((ds ++ [r]).modify j (WireUnit.flip k)) ++ s.params.stop :: rest) →
      ∃ tr, exec (.deframe []) s =
        .next ((s.answered rest ⟨some .corrupt, some .checksum⟩ .corrupt []).withTransient tr)

/-- The round trip through one core: LOOPBACK of a payload into an empty RB with room for its frames, and then one DEFRAME
per sub-frame P[8j .. min(8j+8, L)), gives the sub-frames back in order, and RB is empty; one more is INCOMPLETE; the
sub-frames make up the payload (43_framer.md, FRAME; 44_deframer.md, Laws of the deframer, law 5; 30_encoding.md section 4). -/
def Obligations.LoopbackReturnsPayload : Prop :=
  ∀ (s : State) (payload : List Byte), s.params.Wf → s.rb = [] → payload.length ≤ 26208 →
    (∀ c ∈ s.params.rbCap, (frame s.params s.mode payload).length ≤ c) →
      subframes payload = (List.range (max 1 ((payload.length + 7) / 8))).map
        (fun j => (payload.drop (8 * j)).take 8) ∧
      (subframes payload).flatten = payload ∧
      ∃ tr, execAll (loopbackCommands s.params s.mode payload ++
          List.replicate (subframes payload).length (.deframe []) ++ [.deframe []]) s =
        .next ({ s with
          status := ⟨some .incomplete, none⟩
          responses := s.responses ++
            ([⟨.ok, frame s.params s.mode payload⟩, ⟨.ok, []⟩] ++ (subframes payload).map (fun w => ⟨.done, w⟩) ++
              [⟨.incomplete, []⟩] : List Response) : State }.withTransient tr)

/-! ### The host interface and reset -/

/-- R60: RB_APPEND puts all its bytes at the back of RB, in order, or answers OVERFLOW and puts none when RB_CAP is bounded
and they would pass it; the bytes already there stay; STATUS is unchanged; no LEN up to 65535 is BADLEN. -/
def Obligations.RbAppendResult : Prop :=
  (∀ (s : State) (o : List Byte), o.length ≤ 65535 →
    ((∃ c ∈ s.params.rbCap, c < s.rb.length + o.length) →
      exec (.rbAppend o) s = .next (s.answered s.rb s.status .overflow [])) ∧
    ((∀ c ∈ s.params.rbCap, s.rb.length + o.length ≤ c) →
      exec (.rbAppend o) s = .next (s.answered (s.rb ++ o) s.status .ok [])) ∧
    (∀ a < s.rb.length, Memory.read (s.rb ++ o) a = s.rb.read a) ∧
    (∀ a < o.length, Memory.read (s.rb ++ o) (s.rb.length + a) = o[a]?)) ∧
  (∀ o : List Byte, o.length ≤ 65535 →
    encode (.rbAppend o) = 0x09 :: BitVec.ofNat 8 (o.length / 256) :: BitVec.ofNat 8 o.length :: o)

/-- R61: STATUS_READ returns STATUS and does not clear it; an operand is BADLEN; after reset it returns 0x00. -/
def Obligations.StatusReadResult : Prop :=
  (∀ s : State, exec (.statusRead []) s = .next (s.answered s.rb s.status .ok [s.status.word])) ∧
  (∀ (s : State) (o : List Byte), o ≠ [] → exec (.statusRead o) s = .next (s.answered s.rb s.status .badLen [])) ∧
  encode (.statusRead []) = [0x0A, 0x00, 0x00] ∧
  exec (.statusRead []) State.reset = .next (State.reset.answered [] State.reset.status .ok [0x00]) ∧
  (∀ s : State, s.status = ⟨some .corrupt, some .checksum⟩ → s.status.word = 0x0B)

/-- R62: CFG_READ returns CFG, MODE in bit 0 and bits 7:1 zero; an operand is BADLEN. -/
def Obligations.CfgReadResult : Prop :=
  (∀ s : State, exec (.cfgRead []) s =
    .next (s.answered s.rb s.status .ok [if s.mode = .crc8 then 0x01 else 0x00])) ∧
  (∀ (s : State) (o : List Byte), o ≠ [] → exec (.cfgRead o) s = .next (s.answered s.rb s.status .badLen [])) ∧
  encode (.cfgRead []) = [0x0B, 0x00, 0x00]

/-- R71: what reset leaves: MODE from MODE_IN, CFG[7:1] zero, STATUS 0x00, RB empty, the parameters unchanged, for the start
of a run and for a reset between commands. The reset is the next thing in the model's list `pending`
(notes/assumptions/3.md); the transient registers have no value, and nothing is said of them. -/
def Obligations.ResetState : Prop :=
  (State.reset.mode = Config.modeIn ∧ State.reset.status = ⟨none, none⟩ ∧ State.reset.status.word = 0x00 ∧
    State.reset.rb = []) ∧
  (∀ m : Mode, modeWord m &&& 0xFE#8 = 0x00#8) ∧
  (∀ (s : State) (m : Mode) (events : List HostEvent), s.pending = .reset m :: events →
    ∃ t, step s = .next t ∧ t.mode = m ∧ t.status = ⟨none, none⟩ ∧ t.status.word = 0x00 ∧ t.rb = [] ∧ t.params = s.params)

/-! ### What no command changes, and who changes what -/

/-- Every command but DEFRAME and RB_APPEND leaves every byte of RB and STATUS as they are, and every command leaves CFG,
the parameters and what the host has still to do; that a command which uses no transient register leaves them all is the
model's choice (notes/assumptions/9.md) (10_state.md section 6, 20_memory.md section 3). -/
def Obligations.CommandFrame : Prop :=
  ∀ (i : Instr) (s t : State), exec i s = .next t →
    t.mode = s.mode ∧ t.params = s.params ∧ t.pending = s.pending ∧
    ((∀ o, i ≠ .deframe o) → t.status = s.status) ∧
    ((∀ o, i ≠ .deframe o) → (∀ o, i ≠ .rbAppend o) → t.rb = s.rb ∧ ∀ a, t.rb.read a = s.rb.read a) ∧
    ((∀ o, i ≠ .frame o) → (∀ o, i ≠ .deframe o) → (∀ o, i ≠ .crcCompute o) → (∀ o, i ≠ .crcVerify o) →
      t.transient = s.transient)

/-- R21: RB is accessed in exactly two ways: RB_APPEND puts bytes at the back, DEFRAME takes bytes from the front, so that
RB[n] becomes RB[0]; no command changes a byte in the middle. -/
def Obligations.RbHasTwoAccesses : Prop :=
  ∀ (i : Instr) (s t : State), exec i s = .next t →
    t.rb = s.rb ∨
    (∃ o, i = .rbAppend o ∧ t.rb = s.rb ++ o) ∨
    (∃ o n, i = .deframe o ∧ n ≤ s.rb.length ∧ t.rb = s.rb.drop n ∧ ∀ a, t.rb.read a = s.rb.read (n + a))

/-- R14: only DEFRAME and reset write STATUS; a DEFRAME replaces both fields whatever they were; and no command but
STATUS_READ reads it. -/
def Obligations.OnlyDeframeAndResetWriteStatus : Prop :=
  (∀ s t : State, step s = .next t → t.status ≠ s.status →
    (∃ m events, s.pending = .reset m :: events ∧ t.status.word = 0x00) ∨
    (∃ bytes rest events, s.pending = .commands bytes :: events ∧ decode bytes = .instr (.deframe []) rest)) ∧
  (∀ (s t : State) (u : Status), exec (.deframe []) s = .next t → exec (.deframe []) { s with status := u } = .next t) ∧
  (∀ (i : Instr) (s t : State) (u : Status), (∀ o, i ≠ .statusRead o) → (∀ o, i ≠ .deframe o) →
    exec i s = .next t → exec i { s with status := u } = .next { t with status := u })

/-- R12: a reset, when it is the next thing in the model's list (notes/assumptions/3.md), latches CFG.MODE from the MODE_IN it
samples, and every other step leaves CFG.MODE as it was; CFG reads 0 for PARITY and 1 for CRC8, bits 7:1 zero;
and MODE selects the check variant of FRAME and DEFRAME. -/
def Obligations.ModeLatchedAtReset : Prop :=
  (∀ (s : State) (m : Mode) (events : List HostEvent), s.pending = .reset m :: events →
    ∃ t, step s = .next t ∧ t.mode = m) ∧
  (∀ s t : State, (∀ m events, s.pending ≠ .reset m :: events) → step s = .next t → t.mode = s.mode) ∧
  modeWord .parity = 0x00 ∧ modeWord .crc8 = 0x01 ∧
  (∀ (m : Mode) (k : Nat), 1 ≤ k → (modeWord m).getLsbD k = false) ∧
  (∀ w : List Byte, check .parity w = par w ∧ check .crc8 w = crc w)

/-- The legal values of STATUS: REASON is there if and only if OUTCOME is CORRUPT exactly when the register reads one of six
values; bits 7:4 always read 0 (10_state.md section 3, STATUS). -/
def Obligations.StatusValues : Prop :=
  ∀ t : Status, (t.legal ↔ t.word ∈ [0x00#8, 0x01#8, 0x02#8, 0x07#8, 0x0B#8, 0x0F#8]) ∧
    (t.word &&& 0xF0#8 = 0x00#8)

/-- The parameters START, STOP, ESC and RB_CAP never change (00_scope.md section 4). -/
def Obligations.ParametersNeverChange : Prop :=
  ∀ (k : Nat) (s t : State), stepMany k s = .next t → t.params = s.params

/-! ### The invariant and the transient registers -/

/-- The state after reset meets the invariant. Its clauses on the transient registers rest on the values the model chose for
them (notes/assumptions/8.md). -/
def Obligations.ResetMeetsInvariant : Prop := State.reset.Inv

/-- Every step keeps the invariant: legal parameters, RB within RB_CAP, a legal STATUS, and the accumulator, the working
buffer and the accumulation within their ranges. Its clauses on the transient registers rest on the values the model chose
that a command leaves in them (notes/assumptions/9.md), which 93_implementation_defined.md I8 leaves open. -/
def Obligations.StepKeepsInvariant : Prop :=
  ∀ s t : State, s.Inv → step s = .next t → t.Inv

/-- R10: no later command can observe a transient value: two runs from states that differ only in the transient registers
give the same responses and differ only in the transient registers, however many steps they take. -/
def Obligations.TransientsAreUnobservable : Prop :=
  ∀ (k : Nat) (s : State) (tr : Transient),
    (∀ t, stepMany k s = .next t → ∃ tr', stepMany k (s.withTransient tr) = .next (t.withTransient tr')) ∧
    (∀ r, stepMany k s = .refused r → stepMany k (s.withTransient tr) = .refused r)

/-! ### The assembler -/

/-- Lines of the four forms of R79 and a comment stand for the commands they name, and LOOPBACK stands for FRAME and an
RB_APPEND of the data of FRAME's response: the frames, or nothing where that response is BADLEN. Commands are assembled into
their serial forms one after another, and not at all when the operand of one does not fit LEN, which is the model's choice
(notes/assumptions/15.md). -/
def Obligations.AssemblerForms : Prop :=
  readLine "DEFRAME".toList = some (.command (.deframe [])) ∧
  readLine "ESCAPE 0x7B -- one byte".toList = some (.command (.escape [0x7B])) ∧
  readLine "FRAME [0x01, 0x02, 0x03]".toList = some (.command (.frame [0x01, 0x02, 0x03])) ∧
  readLine ("RB_APPEND ".toList ++ [Char.ofNat 34, 'H', 'i', Char.ofNat 34]) =
    some (.command (.rbAppend [0x48, 0x69])) ∧
  readLine "-- a comment".toList = some .blank ∧
  (∀ (s : State) (p : List Byte), ∃ t r, exec (.frame p) s = .next t ∧ t.responses = s.responses ++ [r] ∧
    Line.expand s.params s.mode (.loopback p) = [.frame p, .rbAppend r.data] ∧
    (p.length ≤ 26208 → r.data = frame s.params s.mode p) ∧ (26208 < p.length → r.data = [])) ∧
  (∀ is : List Instr, (∀ i ∈ is, i.wf = true) → encodeAll is = some (is.map encode).flatten) ∧
  (∀ (is : List Instr) (i : Instr), i ∈ is → i.wf = false → encodeAll is = none)
end

