-- ==== Sys2Proof/Laws/State.lean ====
section
/-!
SUPPORT. One lemma per field per update of State.
-/

namespace Sys2Proof.Machine

variable (s : State)

@[simp] theorem State.respond_params (c : ResponseCode) (d : List Byte) : (s.respond c d).params = s.params := rfl
@[simp] theorem State.respond_mode (c : ResponseCode) (d : List Byte) : (s.respond c d).mode = s.mode := rfl
@[simp] theorem State.respond_status (c : ResponseCode) (d : List Byte) : (s.respond c d).status = s.status := rfl
@[simp] theorem State.respond_rb (c : ResponseCode) (d : List Byte) : (s.respond c d).rb = s.rb := rfl
@[simp] theorem State.respond_transient (c : ResponseCode) (d : List Byte) : (s.respond c d).transient = s.transient := rfl
@[simp] theorem State.respond_pending (c : ResponseCode) (d : List Byte) : (s.respond c d).pending = s.pending := rfl
@[simp] theorem State.respond_responses (c : ResponseCode) (d : List Byte) : (s.respond c d).responses = s.responses ++ [⟨c, d⟩] := rfl

@[simp] theorem State.reject_params (c : ResponseCode) : (s.reject c).params = s.params := rfl
@[simp] theorem State.reject_mode (c : ResponseCode) : (s.reject c).mode = s.mode := rfl
@[simp] theorem State.reject_status (c : ResponseCode) : (s.reject c).status = s.status := rfl
@[simp] theorem State.reject_rb (c : ResponseCode) : (s.reject c).rb = s.rb := rfl
@[simp] theorem State.reject_transient (c : ResponseCode) : (s.reject c).transient = s.transient := rfl
@[simp] theorem State.reject_pending (c : ResponseCode) : (s.reject c).pending = s.pending := rfl
@[simp] theorem State.reject_responses (c : ResponseCode) : (s.reject c).responses = s.responses ++ [⟨c, []⟩] := rfl

@[simp] theorem State.finish_params (o : FrameOutcome) (r : Option CorruptReason) (d : List Byte) : (s.finish o r d).params = s.params := rfl
@[simp] theorem State.finish_mode (o : FrameOutcome) (r : Option CorruptReason) (d : List Byte) : (s.finish o r d).mode = s.mode := rfl
@[simp] theorem State.finish_status (o : FrameOutcome) (r : Option CorruptReason) (d : List Byte) : (s.finish o r d).status = ⟨some o, r⟩ := rfl
@[simp] theorem State.finish_rb (o : FrameOutcome) (r : Option CorruptReason) (d : List Byte) : (s.finish o r d).rb = s.rb := rfl
@[simp] theorem State.finish_transient (o : FrameOutcome) (r : Option CorruptReason) (d : List Byte) : (s.finish o r d).transient = s.transient := rfl
@[simp] theorem State.finish_pending (o : FrameOutcome) (r : Option CorruptReason) (d : List Byte) : (s.finish o r d).pending = s.pending := rfl
@[simp] theorem State.finish_responses (o : FrameOutcome) (r : Option CorruptReason) (d : List Byte) : (s.finish o r d).responses = s.responses ++ [⟨o.code, d⟩] := rfl

@[simp] theorem State.setAcc_params (a : BitVec 9) : (s.setAcc a).params = s.params := rfl
@[simp] theorem State.setAcc_mode (a : BitVec 9) : (s.setAcc a).mode = s.mode := rfl
@[simp] theorem State.setAcc_status (a : BitVec 9) : (s.setAcc a).status = s.status := rfl
@[simp] theorem State.setAcc_rb (a : BitVec 9) : (s.setAcc a).rb = s.rb := rfl
@[simp] theorem State.setAcc_transient (a : BitVec 9) : (s.setAcc a).transient = { s.transient with acc := a } := rfl
@[simp] theorem State.setAcc_pending (a : BitVec 9) : (s.setAcc a).pending = s.pending := rfl
@[simp] theorem State.setAcc_responses (a : BitVec 9) : (s.setAcc a).responses = s.responses := rfl

@[simp] theorem State.resetCore_params (m : Mode) : (s.resetCore m).params = s.params := rfl
@[simp] theorem State.resetCore_mode (m : Mode) : (s.resetCore m).mode = m := rfl
@[simp] theorem State.resetCore_status (m : Mode) : (s.resetCore m).status = Status.atReset := rfl
@[simp] theorem State.resetCore_rb (m : Mode) : (s.resetCore m).rb = [] := rfl
@[simp] theorem State.resetCore_transient (m : Mode) : (s.resetCore m).transient = s.transient := rfl
@[simp] theorem State.resetCore_pending (m : Mode) : (s.resetCore m).pending = s.pending := rfl
@[simp] theorem State.resetCore_responses (m : Mode) : (s.resetCore m).responses = s.responses := rfl

@[simp] theorem State.afterScan_params (e : ScanEnd) : (s.afterScan e).params = s.params := rfl
@[simp] theorem State.afterScan_mode (e : ScanEnd) : (s.afterScan e).mode = s.mode := rfl
@[simp] theorem State.afterScan_status (e : ScanEnd) : (s.afterScan e).status = s.status := rfl
@[simp] theorem State.afterScan_rb (e : ScanEnd) : (s.afterScan e).rb = e.rb := rfl
@[simp] theorem State.afterScan_transient (e : ScanEnd) : (s.afterScan e).transient = { s.transient with phase := e.phase, cursor := e.cursor, lits := e.lits } := rfl
@[simp] theorem State.afterScan_pending (e : ScanEnd) : (s.afterScan e).pending = s.pending := rfl
@[simp] theorem State.afterScan_responses (e : ScanEnd) : (s.afterScan e).responses = s.responses := rfl

@[simp] theorem State.withTransient_params (tr : Transient) : (s.withTransient tr).params = s.params := rfl
@[simp] theorem State.withTransient_mode (tr : Transient) : (s.withTransient tr).mode = s.mode := rfl
@[simp] theorem State.withTransient_status (tr : Transient) : (s.withTransient tr).status = s.status := rfl
@[simp] theorem State.withTransient_rb (tr : Transient) : (s.withTransient tr).rb = s.rb := rfl
@[simp] theorem State.withTransient_transient (tr : Transient) : (s.withTransient tr).transient = tr := rfl
@[simp] theorem State.withTransient_pending (tr : Transient) : (s.withTransient tr).pending = s.pending := rfl
@[simp] theorem State.withTransient_responses (tr : Transient) : (s.withTransient tr).responses = s.responses := rfl

@[simp] theorem State.answered_params (rb : Memory) (t : Status) (c : ResponseCode) (d : List Byte) : (s.answered rb t c d).params = s.params := rfl
@[simp] theorem State.answered_mode (rb : Memory) (t : Status) (c : ResponseCode) (d : List Byte) : (s.answered rb t c d).mode = s.mode := rfl
@[simp] theorem State.answered_status (rb : Memory) (t : Status) (c : ResponseCode) (d : List Byte) : (s.answered rb t c d).status = t := rfl
@[simp] theorem State.answered_rb (rb : Memory) (t : Status) (c : ResponseCode) (d : List Byte) : (s.answered rb t c d).rb = rb := rfl
@[simp] theorem State.answered_transient (rb : Memory) (t : Status) (c : ResponseCode) (d : List Byte) : (s.answered rb t c d).transient = s.transient := rfl
@[simp] theorem State.answered_pending (rb : Memory) (t : Status) (c : ResponseCode) (d : List Byte) : (s.answered rb t c d).pending = s.pending := rfl
@[simp] theorem State.answered_responses (rb : Memory) (t : Status) (c : ResponseCode) (d : List Byte) : (s.answered rb t c d).responses = s.responses ++ [⟨c, d⟩] := rfl

@[simp] theorem State.sendWord_params (n w : Nat) : (s.sendWord n w).params = s.params := rfl
@[simp] theorem State.sendWord_mode (n w : Nat) : (s.sendWord n w).mode = s.mode := rfl
@[simp] theorem State.sendWord_status (n w : Nat) : (s.sendWord n w).status = s.status := rfl
@[simp] theorem State.sendWord_rb (n w : Nat) : (s.sendWord n w).rb = s.rb := rfl
@[simp] theorem State.sendWord_transient (n w : Nat) : (s.sendWord n w).transient = s.transient := rfl
@[simp] theorem State.sendWord_pending (n w : Nat) : (s.sendWord n w).pending = .commands (wordBytes n w) :: s.pending := rfl
@[simp] theorem State.sendWord_responses (n w : Nat) : (s.sendWord n w).responses = s.responses := rfl

@[simp] theorem State.checkAcc_params (w : List Byte) : (s.checkAcc w).params = s.params := rfl
@[simp] theorem State.checkAcc_mode (w : List Byte) : (s.checkAcc w).mode = s.mode := rfl
@[simp] theorem State.checkAcc_status (w : List Byte) : (s.checkAcc w).status = s.status := rfl
@[simp] theorem State.checkAcc_rb (w : List Byte) : (s.checkAcc w).rb = s.rb := rfl
@[simp] theorem State.checkAcc_transient (w : List Byte) : (s.checkAcc w).transient = { s.transient with acc := accAfter s.mode s.transient.acc w } := rfl
@[simp] theorem State.checkAcc_pending (w : List Byte) : (s.checkAcc w).pending = s.pending := rfl
@[simp] theorem State.checkAcc_responses (w : List Byte) : (s.checkAcc w).responses = s.responses := rfl

@[simp] theorem State.frameTransients_params (w : List Byte) : (s.frameTransients w).params = s.params := rfl
@[simp] theorem State.frameTransients_mode (w : List Byte) : (s.frameTransients w).mode = s.mode := rfl
@[simp] theorem State.frameTransients_status (w : List Byte) : (s.frameTransients w).status = s.status := rfl
@[simp] theorem State.frameTransients_rb (w : List Byte) : (s.frameTransients w).rb = s.rb := rfl
@[simp] theorem State.frameTransients_transient (w : List Byte) : (s.frameTransients w).transient = { s.transient with work := (subframes w).getLastD [], acc := accAfter s.mode s.transient.acc ((subframes w).getLastD []) } := rfl
@[simp] theorem State.frameTransients_pending (w : List Byte) : (s.frameTransients w).pending = s.pending := rfl
@[simp] theorem State.frameTransients_responses (w : List Byte) : (s.frameTransients w).responses = s.responses := rfl

end Sys2Proof.Machine
end

