-- ==== Sys2Proof/Laws/Exec.lean ====
section
/-!
SUPPORT. What the shared operations around a meaning do: the length check of spec/30_encoding.md R33, the split of a
verify operand, and the arms of `exec`.
-/

namespace Sys2Proof.Machine

theorem guardLen_legal {i : Instr} (h : legalLen i = true) (s run : State) : guardLen i s run = run := by
  simp [guardLen, h]

theorem guardLen_illegal {i : Instr} (h : legalLen i = false) (s run : State) : guardLen i s run = s.reject .badLen := by
  simp [guardLen, h]

/-- A command runs with a legal length, or answers BADLEN without one, and nothing else. -/
theorem guardLen_cases (i : Instr) (s run : State) :
    legalLen i = true ∧ guardLen i s run = run ∨ legalLen i = false ∧ guardLen i s run = s.reject .badLen := by
  cases h : legalLen i <;> simp [guardLen, h]

/-- The legal lengths are the ranges of the table of R31. -/
theorem legalLen_iff (i : Instr) :
    legalLen i = true ↔ (lenRange i).1 ≤ i.operand.length ∧ i.operand.length ≤ (lenRange i).2 := by
  cases i <;> simp only [legalLen, lenRange, Instr.operand, Config.subframeMax, Config.framePayloadMax,
    decide_eq_true_eq] <;> omega

@[simp] theorem splitCheck_nil : splitCheck [] = none := rfl

@[simp] theorem splitCheck_append (w : List Byte) (r : Byte) : splitCheck (w ++ [r]) = some (w, r) := by
  simp [splitCheck]

theorem splitCheck_some {l w : List Byte} {r : Byte} (h : splitCheck l = some (w, r)) : l = w ++ [r] := by
  rcases List.eq_nil_or_concat l with rfl | ⟨w', r', rfl⟩
  · simp at h
  · simp only [List.concat_eq_append, splitCheck_append, Option.some.injEq, Prod.mk.injEq] at h
    simp [h]

theorem splitCheck_eq_none {l : List Byte} : splitCheck l = none ↔ l = [] := by
  simp [splitCheck]

@[simp] theorem State.withTransient_self (s : State) : s.withTransient s.transient = s := rfl

@[simp] theorem State.withTransient_withTransient (s : State) (a b : Transient) :
    (s.withTransient a).withTransient b = s.withTransient b := rfl

theorem exec_escape (o : List Byte) (s : State) : exec (.escape o) s = execEscape o s := rfl
theorem exec_unescape (o : List Byte) (s : State) : exec (.unescape o) s = execUnescape o s := rfl
theorem exec_parCompute (o : List Byte) (s : State) : exec (.parCompute o) s = execParCompute o s := rfl
theorem exec_parVerify (o : List Byte) (s : State) : exec (.parVerify o) s = execParVerify o s := rfl
theorem exec_crcCompute (o : List Byte) (s : State) : exec (.crcCompute o) s = execCrcCompute o s := rfl
theorem exec_crcVerify (o : List Byte) (s : State) : exec (.crcVerify o) s = execCrcVerify o s := rfl
theorem exec_frame (o : List Byte) (s : State) : exec (.frame o) s = execFrame o s := rfl
theorem exec_deframe (o : List Byte) (s : State) : exec (.deframe o) s = execDeframe o s := rfl
theorem exec_rbAppend (o : List Byte) (s : State) : exec (.rbAppend o) s = execRbAppend o s := rfl
theorem exec_statusRead (o : List Byte) (s : State) : exec (.statusRead o) s = execStatusRead o s := rfl
theorem exec_cfgRead (o : List Byte) (s : State) : exec (.cfgRead o) s = execCfgRead o s := rfl

theorem frameResponse_legal {payload : List Byte} (h : payload.length ≤ 26208) (p : Params) (m : Mode) :
    frameResponse p m payload = ⟨.ok, frame p m payload⟩ := by
  simp [frameResponse, legalLen, Config.framePayloadMax, h]

theorem frameResponse_illegal {payload : List Byte} (h : 26208 < payload.length) (p : Params) (m : Mode) :
    frameResponse p m payload = ⟨.badLen, []⟩ := by
  simp [frameResponse, legalLen, Config.framePayloadMax, Nat.not_le.mpr h]

/-- `frameResponse` is the response FRAME gives, whatever the payload. -/
theorem exec_frame_response {payload : List Byte} {s t : State} (h : exec (.frame payload) s = .next t) :
    t.responses = s.responses ++ [frameResponse s.params s.mode payload] := by
  cases h
  rcases guardLen_cases (.frame payload) s
    ((s.frameTransients payload).respond .ok (frame s.params s.mode payload)) with ⟨hl, e⟩ | ⟨hl, e⟩
  · rw [e, frameResponse, if_pos hl]; rfl
  · rw [e, frameResponse, hl]; rfl

/-- Every meaning answers a next state: no command stops the core (60_exceptions.md R65, R68). -/
theorem exec_next (i : Instr) (s : State) : ∃ t, exec i s = .next t := by cases i <;> exact ⟨_, rfl⟩

/-- Computing a check changes at most the accumulator: the state it leaves, up to the transient registers. -/
theorem State.checkAcc_eq (s : State) (w : List Byte) : ∃ tr, s.checkAcc w = s.withTransient tr := ⟨_, rfl⟩

/-- FRAME's registers: the state it leaves, up to the transient registers. -/
theorem State.frameTransients_eq (s : State) (w : List Byte) : ∃ tr, s.frameTransients w = s.withTransient tr := ⟨_, rfl⟩

end Sys2Proof.Machine
end

