-- ==== Sys2Proof/Laws/Check.lean ====
section
/-!
SUPPORT. The check unit: the LFSR clock keeps bit 8 clear and is linear, the accumulator over a concatenation, and the
parity of a concatenation (spec/41_parity.md, spec/42_crc8.md).
-/

namespace Sys2Proof.Machine

theorem lfsrClock_bit8 (acc : BitVec 9) (bit : Bool) : (lfsrClock acc bit).getLsbD 8 = false := by
  simp only [lfsrClock, Config.gen]
  split <;> rename_i h
  · rw [BitVec.getLsbD_xor, h]; rfl
  · simpa using h

theorem foldl_lfsrClock_bit8 (bits : List Bool) {acc : BitVec 9} (h : acc.getLsbD 8 = false) :
    (bits.foldl lfsrClock acc).getLsbD 8 = false := by
  induction bits generalizing acc with
  | nil => exact h
  | cons b bits ih => exact ih (lfsrClock_bit8 acc b)

/-- Bit 8 of the accumulator is clear at the end of every CRC (R16). -/
theorem crcAcc_bit8 (s : List Byte) : (crcAcc s).getLsbD 8 = false := foldl_lfsrClock_bit8 _ rfl

@[simp] theorem crcAcc_nil : crcAcc [] = 0 := rfl

@[simp] theorem crc_nil : crc [] = 0 := rfl

theorem crcAcc_append (s t : List Byte) : crcAcc (s ++ t) = (t.flatMap bitsOf).foldl lfsrClock (crcAcc s) := by
  simp [crcAcc]

/-- Computing a check keeps bit 8 of the accumulator clear. -/
theorem accAfter_bit8 (m : Mode) {a : BitVec 9} (h : a.getLsbD 8 = false) (w : List Byte) :
    (accAfter m a w).getLsbD 8 = false := by
  cases m
  · exact h
  · exact crcAcc_bit8 w

/-- The accumulator is its low 8 bits with a clear bit 8. -/
theorem crcAcc_eq (s : List Byte) : crcAcc s = (crc s).setWidth 9 := by
  have h := crcAcc_bit8 s
  apply BitVec.eq_of_getLsbD_eq
  intro i hi
  rcases Nat.lt_or_ge i 8 with h8 | h8
  · simp [crc, h8, hi]
  · obtain rfl : i = 8 := by omega
    rw [h]
    simp [crc]

@[simp] theorem par_nil : par [] = 0 := rfl

theorem onesCount_append (s t : List Byte) : onesCount (s ++ t) = onesCount s + onesCount t := by
  simp [onesCount]

@[simp] theorem check_nil (m : Mode) : check m [] = 0 := by cases m <;> rfl

theorem verify_eq (m : Mode) (d : List Byte) (r : Byte) : verify m d r = (check m d == r) := by cases m <;> rfl

end Sys2Proof.Machine
end

