-- ==== Sys2Proof/Laws/Decode.lean ====
section
/-!
SUPPORT. The parts of the command encoding (spec/30_encoding.md R29, R30): the length field and the opcode map, both
ways. The round trips are put together from them.
-/

namespace Sys2Proof

theorem lenOf_lt (hi lo : Byte) : lenOf hi lo ≤ 0xFFFF := by
  have := hi.isLt
  have := lo.isLt
  unfold lenOf
  omega

theorem lenOf_of_lenBytes {n : Nat} (h : n ≤ 0xFFFF) : lenOf (BitVec.ofNat 8 (n / 256)) (BitVec.ofNat 8 n) = n := by
  simp only [lenOf, BitVec.toNat_ofNat]
  omega

theorem lenBytes_of_lenOf (hi lo : Byte) : lenBytes (lenOf hi lo) = [hi, lo] := by
  have := hi.isLt
  have := lo.isLt
  simp only [lenBytes, lenOf, List.cons.injEq, and_true]
  constructor <;> (apply BitVec.eq_of_toNat_eq; simp only [BitVec.toNat_ofNat]; omega)

theorem instrOf_opcode (i : Instr) : instrOf i.opcode i.operand = some i := by cases i <;> rfl

theorem instrOf_operand {op : Byte} {o : List Byte} {i : Instr} (h : instrOf op o = some i) : i.operand = o := by
  unfold instrOf at h
  split at h <;> cases h <;> rfl

theorem opcode_of_instrOf {op : Byte} {o : List Byte} {i : Instr} (h : instrOf op o = some i) : i.opcode = op := by
  apply BitVec.eq_of_toNat_eq
  unfold instrOf at h
  split at h <;> cases h <;> (rename_i hop; rw [hop]; rfl)

/-- The reserved opcodes are the ones outside 0x01 .. 0x0B (R33). -/
theorem instrOf_none_iff (op : Byte) (o : List Byte) : instrOf op o = none ↔ op.toNat = 0 ∨ 0x0B < op.toNat := by
  unfold instrOf
  split <;> simp_all
  omega

end Sys2Proof
end

