-- ==== Sys2Proof/Laws/Framer.lean ====
section
/-!
SUPPORT. The cut of a payload into sub-frames (spec/43_framer.md R47), and the wire form of bytes as units
(spec/30_encoding.md R28).
-/

namespace Sys2Proof.Machine

theorem subframeCount_short {l : Nat} (h : l ≤ 8) : subframeCount l = 1 := by
  simp only [subframeCount, Config.subframeMax]; omega

theorem subframeCount_add {l : Nat} (h : 0 < l) : subframeCount (8 + l) = subframeCount l + 1 := by
  simp only [subframeCount, Config.subframeMax]; omega

theorem subframes_length (payload : List Byte) : (subframes payload).length = subframeCount payload.length := by
  simp [subframes]

/-- A payload of at most 8 bytes is one sub-frame, the empty payload among them. -/
theorem subframes_short {w : List Byte} (h : w.length ≤ 8) : subframes w = [w] := by
  simp [subframes, subframeCount_short h, Config.subframeMax, List.take_of_length_le h]

/-- The first 8 bytes of a longer payload are its first sub-frame. -/
theorem subframes_cons {w rest : List Byte} (hw : w.length = 8) (hr : rest ≠ []) :
    subframes (w ++ rest) = w :: subframes rest := by
  have hl : 0 < rest.length := List.length_pos_iff.mpr hr
  simp only [subframes, List.length_append, hw, subframeCount_add hl, List.range_succ_eq_map, List.map_cons,
    List.map_map, Config.subframeMax]
  congr 1
  · simp [← hw]
  · apply List.map_congr_left
    intro j _
    have h8 : 8 * (j + 1) = w.length + 8 * j := by omega
    simp [Function.comp, h8]

theorem subframes_length_le {payload w : List Byte} (h : w ∈ subframes payload) : w.length ≤ 8 := by
  simp only [subframes, List.mem_map] at h
  obtain ⟨j, -, rfl⟩ := h
  simp [Config.subframeMax]

/-- Induction along the sub-frames of a payload. -/
theorem subframe_induction {motive : List Byte → Prop} (short : ∀ w, w.length ≤ 8 → motive w)
    (cons : ∀ w rest, w.length = 8 → rest ≠ [] → motive rest → motive (w ++ rest)) (payload : List Byte) :
    motive payload := by
  induction hn : payload.length using Nat.strong_induction_on generalizing payload with
  | _ n ih =>
    rcases Nat.lt_or_ge 8 payload.length with h | h
    · rw [← List.take_append_drop 8 payload]
      refine cons _ _ (by simp; omega) (by simp; omega) (ih _ ?_ _ rfl)
      simp; omega
    · exact short _ h

/-- A byte as the unit ESCAPE makes of it. -/
def unitOf (p : Params) (b : Byte) : WireUnit := if isSpecial p b then .escaped b else .plain b

@[simp] theorem unitOf_literal (p : Params) (b : Byte) : (unitOf p b).literal = b := by
  unfold unitOf; split <;> rfl

@[simp] theorem unitOf_bytes (p : Params) (b : Byte) : (unitOf p b).bytes p = escape p b := by
  unfold unitOf escape; split <;> rfl

theorem unitOf_ok (p : Params) (b : Byte) : (unitOf p b).ok p := by
  unfold unitOf
  split
  · trivial
  · rename_i h
    simpa [isSpecial, WireUnit.ok, and_assoc] using h

theorem unitBytes_unitOf (p : Params) (s : List Byte) : unitBytes p (s.map (unitOf p)) = escapeAll p s := by
  simp [unitBytes, escapeAll, List.flatMap_map]

theorem literals_unitOf (p : Params) (s : List Byte) : literals (s.map (unitOf p)) = s := by
  simp [literals, Function.comp_def]

@[simp] theorem unitBytes_append (p : Params) (us vs : List WireUnit) :
    unitBytes p (us ++ vs) = unitBytes p us ++ unitBytes p vs := by simp [unitBytes]

@[simp] theorem literals_append (us vs : List WireUnit) : literals (us ++ vs) = literals us ++ literals vs := by
  simp [literals]

@[simp] theorem literals_length (us : List WireUnit) : (literals us).length = us.length := by simp [literals]

end Sys2Proof.Machine
end

