-- ==== Sys2Proof/Laws/Memory.lean ====
section
/-!
SUPPORT. The receive buffer: its form is kept by both accesses, and what each byte reads as after them
(spec/20_memory.md R21).
-/

namespace Sys2Proof.Machine

theorem Memory.wf_iff (cap : Option Nat) (m : Memory) : m.wf cap = true ↔ ∀ c ∈ cap, m.length ≤ c := by
  cases cap <;> simp [Memory.wf]

theorem Memory.fits_iff (cap : Option Nat) (m : Memory) (n : Nat) : m.fits cap n = true ↔ ∀ c ∈ cap, m.length + n ≤ c := by
  cases cap <;> simp [Memory.fits]

theorem Memory.wf_nil (cap : Option Nat) : Memory.wf cap [] = true := by simp [Memory.wf_iff]

theorem Memory.wf_dropFront {cap : Option Nat} {m : Memory} (h : m.wf cap = true) (n : Nat) :
    (m.dropFront n).wf cap = true := by
  rw [Memory.wf_iff] at *
  intro c hc
  have := h c hc
  simp only [Memory.dropFront, List.length_drop]
  omega

theorem Memory.wf_append {cap : Option Nat} {m : Memory} {b : List Byte} (h : m.fits cap b.length = true) :
    (m.append b).wf cap = true := by
  rw [Memory.wf_iff]
  rw [Memory.fits_iff] at h
  intro c hc
  have := h c hc
  simpa [Memory.append] using this

theorem State.reset_memory_wf : State.reset.rb.wf State.reset.params.rbCap = true := Memory.wf_nil _

theorem Memory.read_append_old {m : Memory} {b : List Byte} {i : Nat} (h : i < m.length) :
    (m.append b).read i = m.read i := List.getElem?_append_left h

theorem Memory.read_append_new (m : Memory) (b : List Byte) (i : Nat) :
    (m.append b).read (m.length + i) = b[i]? := by
  rw [Memory.read, Memory.append, List.getElem?_append_right (by omega), Nat.add_sub_cancel_left]

theorem Memory.read_dropFront (m : Memory) (n i : Nat) : (m.dropFront n).read i = m.read (n + i) := by
  simp [Memory.dropFront, Memory.read]

end Sys2Proof.Machine
end

