-- ==== Sys2Proof/Laws/Deframer.lean ====
section
/-!
SUPPORT. The deframer's scan (spec/44_deframer.md): SEEK_START, what one unit and a run of units do to it, each way it
ends, and that it only removes a front part of RB.
-/

namespace Sys2Proof.Machine

variable {p : Params}

theorem seekStart_none {rb : Memory} (h : ∀ b ∈ rb, b ≠ p.start) : seekStart p rb = [] := by
  simpa [seekStart] using h

theorem seekStart_garbage {g : List Byte} (h : ∀ b ∈ g, b ≠ p.start) (rest : List Byte) :
    seekStart p (g ++ p.start :: rest) = p.start :: rest := by
  unfold seekStart
  rw [List.dropWhile_append, List.dropWhile_eq_nil_iff.mpr (by simpa using h)]
  simp

/-- Either there is no START, or what SEEK_START leaves begins with the first one. -/
theorem seekStart_cases (p : Params) (rb : Memory) :
    seekStart p rb = [] ∧ (∀ b ∈ rb, b ≠ p.start) ∨
    ∃ g rest, (∀ b ∈ g, b ≠ p.start) ∧ rb = g ++ p.start :: rest ∧ seekStart p rb = p.start :: rest := by
  rcases h : seekStart p rb with _ | ⟨c, rest⟩
  · exact .inl ⟨rfl, by simpa [seekStart] using h⟩
  · have hc : c = p.start := by
      unfold seekStart at h
      have := List.head?_dropWhile_not (fun c => c != p.start) rb
      rw [h] at this
      simpa using this
    subst hc
    refine .inr ⟨rb.takeWhile fun c => c != p.start, rest, ?_, ?_, rfl⟩
    · intro b hb
      simpa using List.mem_takeWhile_imp hb
    · conv_lhs => rw [← List.takeWhile_append_dropWhile (p := fun c => c != p.start) (l := rb)]
      rw [show List.dropWhile _ rb = p.start :: rest from h]

@[simp] theorem inFrame_nil (rb : Memory) (i : Nat) (lits : List Byte) :
    inFrame p rb i lits [] = ⟨.endOfBuffer, rb, .inFrame, i, lits⟩ := by rw [inFrame]

@[simp] theorem inFrame_loneEsc (rb : Memory) (i : Nat) (lits : List Byte) :
    inFrame p rb i lits [p.esc] = ⟨.endOfBuffer, rb, .inFrame, i, lits⟩ := by rw [inFrame]; simp

theorem inFrame_escaped (rb : Memory) (i : Nat) (lits : List Byte) (b : Byte) (rest : List Byte) :
    inFrame p rb i lits (p.esc :: b :: rest) =
      if lits.length < 9 then inFrame p rb (i + 2) (lits ++ [b]) rest
      else ⟨.tenthLiteral, rb.dropFront (i + 2), .inFrame, i + 2, lits ++ [b]⟩ := by
  rw [inFrame]
  by_cases h : lits.length < 9
  · have : ¬ 9 < lits.length + 1 := by omega
    simp [h, this]
  · have : 9 < lits.length + 1 := by omega
    simp [h, this]

theorem inFrame_plain (rb : Memory) (i : Nat) (lits : List Byte) {b : Byte}
    (hb : b ≠ p.start ∧ b ≠ p.stop ∧ b ≠ p.esc) (rest : List Byte) :
    inFrame p rb i lits (b :: rest) =
      if lits.length < 9 then inFrame p rb (i + 1) (lits ++ [b]) rest
      else ⟨.tenthLiteral, rb.dropFront (i + 1), .inFrame, i + 1, lits ++ [b]⟩ := by
  rw [inFrame.eq_def]
  by_cases h : lits.length < 9
  · have : ¬ 9 < lits.length + 1 := by omega
    simp [h, this, hb]
  · have : 9 < lits.length + 1 := by omega
    simp [h, this, hb]

theorem inFrame_stop (hp : p.Wf) (rb : Memory) (i : Nat) (lits rest : List Byte) :
    inFrame p rb i lits (p.stop :: rest) = ⟨.stopDelimiter, rb.dropFront (i + 1), .inFrame, i, lits⟩ := by
  rw [inFrame.eq_def]
  simp [hp.2.2.1]

theorem inFrame_start (hp : p.Wf) (rb : Memory) (i : Nat) (lits rest : List Byte) :
    inFrame p rb i lits (p.start :: rest) = inFrame p (rb.dropFront i) 1 [] rest := by
  rw [inFrame.eq_def]
  simp [hp.1, hp.2.1]

/-- One unit: its literal is added and the cursor moves past it, or it is the tenth literal (R53, R56). -/
theorem inFrame_unit (rb : Memory) (i : Nat) (lits : List Byte) {u : WireUnit} (hu : u.ok p) (rest : List Byte) :
    inFrame p rb i lits (u.bytes p ++ rest) =
      if lits.length < 9 then inFrame p rb (i + (u.bytes p).length) (lits ++ [u.literal]) rest
      else ⟨.tenthLiteral, rb.dropFront (i + (u.bytes p).length), .inFrame, i + (u.bytes p).length, lits ++ [u.literal]⟩ := by
  cases u with
  | plain b => exact inFrame_plain rb i lits hu rest
  | escaped b => exact inFrame_escaped rb i lits b rest

/-- A run of units that leaves the accumulation at 9 literals or fewer (R53, R56). -/
theorem inFrame_units (rb : Memory) (us : List WireUnit) (hus : ∀ u ∈ us, u.ok p) (rest : List Byte) :
    ∀ (i : Nat) (lits : List Byte), lits.length + us.length ≤ 9 →
      inFrame p rb i lits (unitBytes p us ++ rest) =
        inFrame p rb (i + (unitBytes p us).length) (lits ++ literals us) rest := by
  induction us with
  | nil => intro i lits _; simp [unitBytes, literals]
  | cons u us ih =>
    intro i lits h
    simp only [List.length_cons] at h
    have hl : lits.length < 9 := by omega
    have hcut : unitBytes p (u :: us) ++ rest = u.bytes p ++ (unitBytes p us ++ rest) := by simp [unitBytes]
    rw [hcut, inFrame_unit rb i lits (hus u (by simp)), if_pos hl,
      ih (fun v hv => hus v (by simp [hv])) _ _ (by simp; omega)]
    simp [unitBytes, literals, Nat.add_assoc]

/-- The scan removes a front part of RB and nothing else (R59 law 1). -/
theorem inFrame_rb (rb : Memory) (i : Nat) (lits unread : List Byte) :
    ∃ n, (inFrame p rb i lits unread).rb = rb.drop n := by
  fun_induction inFrame p rb i lits unread
  all_goals first
    | exact ⟨0, rfl⟩
    | exact ⟨_, rfl⟩
    | assumption
    | (rename_i ih; obtain ⟨n, hn⟩ := ih; exact ⟨_, by rw [hn, Memory.dropFront, List.drop_drop]⟩)

/-- The accumulation holds at most 10 literals at the end of a scan (R18). -/
theorem inFrame_lits (rb : Memory) (i : Nat) (lits unread : List Byte) (h : lits.length ≤ 9) :
    (inFrame p rb i lits unread).lits.length ≤ 10 := by
  fun_induction inFrame p rb i lits unread
  all_goals simp_all
  all_goals omega

theorem deframeScan_start (rest : List Byte) {rb : Memory} (h : seekStart p rb = p.start :: rest) :
    deframeScan p rb = inFrame p (p.start :: rest) 1 [] rest := by
  simp [deframeScan, h]

theorem deframeScan_none {rb : Memory} (h : seekStart p rb = []) :
    deframeScan p rb = ⟨.noStart, [], .seekStart, 0, []⟩ := by
  simp [deframeScan, h]

theorem deframeScan_rb (p : Params) (rb : Memory) : ∃ n, (deframeScan p rb).rb = rb.drop n := by
  rcases seekStart_cases p rb with ⟨h, -⟩ | ⟨g, rest, -, hrb, h⟩
  · exact ⟨rb.length, by simp [deframeScan_none h]⟩
  · obtain ⟨n, hn⟩ := inFrame_rb (p := p) (p.start :: rest) 1 [] rest
    exact ⟨g.length + n, by rw [deframeScan_start rest h, hn, hrb]; simp⟩

theorem deframeScan_lits (p : Params) (rb : Memory) : (deframeScan p rb).lits.length ≤ 10 := by
  rcases seekStart_cases p rb with ⟨h, -⟩ | ⟨g, rest, -, -, h⟩
  · simp [deframeScan_none h]
  · rw [deframeScan_start rest h]
    exact inFrame_lits _ _ _ _ (by simp)

/-- Garbage before the first START counts for nothing (R51). -/
theorem deframeScan_garbage {g : List Byte} (h : ∀ b ∈ g, b ≠ p.start) (rest : List Byte) :
    deframeScan p (g ++ p.start :: rest) = inFrame p (p.start :: rest) 1 [] rest :=
  deframeScan_start rest (seekStart_garbage h rest)

/-- The scan up to the end of a run of at most 9 units (R53, R56). -/
theorem deframeScan_units {g : List Byte} (h : ∀ b ∈ g, b ≠ p.start) {us : List WireUnit} (hus : ∀ u ∈ us, u.ok p)
    (hl : us.length ≤ 9) (rest : List Byte) :
    deframeScan p (g ++ p.start :: (unitBytes p us ++ rest)) =
      inFrame p (p.start :: (unitBytes p us ++ rest)) (1 + (unitBytes p us).length) (literals us) rest := by
  rw [deframeScan_garbage h, inFrame_units _ us hus rest 1 [] (by simpa using hl)]
  rfl

/-- Dropping a frame's START and its units leaves what follows them. -/
theorem dropFront_units (p : Params) (us : List WireUnit) (rest : List Byte) :
    Memory.dropFront (p.start :: (unitBytes p us ++ rest)) (1 + (unitBytes p us).length) = rest := by
  rw [← List.cons_append, Memory.dropFront]
  apply List.drop_left'
  simp only [List.length_cons]
  omega

/-- A scan that ends at a STOP has at most 9 literals. -/
theorem inFrame_stop_lits (rb : Memory) (i : Nat) (lits unread : List Byte) (h : lits.length ≤ 9)
    (he : (inFrame p rb i lits unread).event = .stopDelimiter) : (inFrame p rb i lits unread).lits.length ≤ 9 := by
  fun_induction inFrame p rb i lits unread
  all_goals simp_all

theorem deframeScan_stop_lits {rb : Memory} (he : (deframeScan p rb).event = .stopDelimiter) :
    (deframeScan p rb).lits.length ≤ 9 := by
  rcases seekStart_cases p rb with ⟨h, -⟩ | ⟨g, rest, -, -, h⟩
  · simp [deframeScan_none h]
  · rw [deframeScan_start rest h] at he ⊢
    exact inFrame_stop_lits _ _ _ _ (by simp) he

/-- DEFRAME depends on RB through the scan alone. -/
theorem State.deframe_congr {s : State} {rb : Memory} (h : deframeScan s.params s.rb = deframeScan s.params rb) :
    s.deframe = State.deframe { s with rb := rb } := by
  unfold State.deframe
  simp only [h]
  split <;> rfl

/-- Everything a judgement at STOP can do. -/
theorem State.judge_cases (s : State) (l : List Byte) :
    ∃ tr, l = [] ∧ s.judge l = (s.answered s.rb ⟨some .corrupt, some .malformed⟩ .corrupt []).withTransient tr ∨
    ∃ d r, l = d ++ [r] ∧
      (check s.mode d = r ∧ s.judge l = (s.answered s.rb ⟨some .done, none⟩ .done d).withTransient tr ∨
       check s.mode d ≠ r ∧
        s.judge l = (s.answered s.rb ⟨some .corrupt, some .checksum⟩ .corrupt []).withTransient tr) := by
  unfold State.judge
  split
  · rename_i h
    exact ⟨_, .inl ⟨splitCheck_eq_none.mp h, rfl⟩⟩
  · rename_i d r h
    rw [verify_eq]
    by_cases hc : check s.mode d = r
    · exact ⟨_, .inr ⟨d, r, splitCheck_some h, .inl ⟨hc, by rw [if_pos (by simpa using hc)]; rfl⟩⟩⟩
    · exact ⟨_, .inr ⟨d, r, splitCheck_some h, .inr ⟨hc, by rw [if_neg (by simpa using hc)]; rfl⟩⟩⟩

/-- Everything a DEFRAME can do, by what ended its scan. -/
theorem State.deframe_cases (s : State) :
    ((deframeScan s.params s.rb).event = .noStart ∨ (deframeScan s.params s.rb).event = .endOfBuffer) ∧
      s.deframe = (s.afterScan (deframeScan s.params s.rb)).finish .incomplete none [] ∨
    (deframeScan s.params s.rb).event = .tenthLiteral ∧
      s.deframe = (s.afterScan (deframeScan s.params s.rb)).finish .corrupt (some .oversize) [] ∨
    (deframeScan s.params s.rb).event = .stopDelimiter ∧
      s.deframe = (s.afterScan (deframeScan s.params s.rb)).judge (deframeScan s.params s.rb).lits := by
  unfold State.deframe
  simp only
  split <;> rename_i he <;> simp [he]

end Sys2Proof.Machine
end

