-- ==== Sys2Proof/Laws/PerInstr.lean ====
section
/-!
SUPPORT. A fact about every command as syntax, one lemma per constructor: its serial form begins with its opcode, which is
one of the opcode map, and is 3 + LEN bytes long (spec/30_encoding.md R29, R30, R78).
-/

namespace Sys2Proof.Laws.SerialForm

/-- The serial form of `i` begins with its opcode, one of 0x01 .. 0x0B, and is three bytes longer than its operand. -/
def Statement (i : Instr) : Prop :=
  (encode i).head? = some i.opcode ∧ (1 ≤ i.opcode.toNat ∧ i.opcode.toNat ≤ 0x0B) ∧
    (encode i).length = 3 + i.operand.length

theorem header (i : Instr) (h : 1 ≤ i.opcode.toNat ∧ i.opcode.toNat ≤ 0x0B) : Statement i := by
  refine ⟨rfl, h, ?_⟩
  simp only [encode, lenBytes, List.cons_append, List.nil_append, List.length_cons]
  omega

theorem escape (o : List Byte) : Statement (.escape o) := header _ (by simp [Instr.opcode])
theorem unescape (o : List Byte) : Statement (.unescape o) := header _ (by simp [Instr.opcode])
theorem parCompute (o : List Byte) : Statement (.parCompute o) := header _ (by simp [Instr.opcode])
theorem parVerify (o : List Byte) : Statement (.parVerify o) := header _ (by simp [Instr.opcode])
theorem crcCompute (o : List Byte) : Statement (.crcCompute o) := header _ (by simp [Instr.opcode])
theorem crcVerify (o : List Byte) : Statement (.crcVerify o) := header _ (by simp [Instr.opcode])
theorem frame (o : List Byte) : Statement (.frame o) := header _ (by simp [Instr.opcode])
theorem deframe (o : List Byte) : Statement (.deframe o) := header _ (by simp [Instr.opcode])
theorem rbAppend (o : List Byte) : Statement (.rbAppend o) := header _ (by simp [Instr.opcode])
theorem statusRead (o : List Byte) : Statement (.statusRead o) := header _ (by simp [Instr.opcode])
theorem cfgRead (o : List Byte) : Statement (.cfgRead o) := header _ (by simp [Instr.opcode])

end Sys2Proof.Laws.SerialForm
end

