-- ==== Sys2Proof/Laws/Step.lean ====
section
/-!
SUPPORT. Everything a step can do (spec/70_reset_and_hazards.md R73): the one inversion lemma of `step`.
-/

namespace Sys2Proof.Machine

/-- If a step answers a next state, then the core was idle, a stretch of the command stream was used up, a reset was taken,
a reserved opcode was answered, or a command was performed. -/
theorem step_cases {s t : State} (h : step s = .next t) :
    s.pending = [] ∧ t = s ∨
    (∃ events, s.pending = .commands [] :: events ∧ t = { s with pending := events }) ∨
    (∃ m events, s.pending = .reset m :: events ∧ t = State.resetCore { s with pending := events } m) ∨
    (∃ bytes events op rest, s.pending = .commands bytes :: events ∧ decode bytes = .reserved op rest ∧
      t = State.reject { s with pending := pushRest rest events } .illegal) ∨
    (∃ bytes events i rest, s.pending = .commands bytes :: events ∧ decode bytes = .instr i rest ∧
      exec i { s with pending := pushRest rest events } = .next t) := by
  unfold step fetch at h
  rcases hp : s.pending with _ | ⟨e, events⟩
  · simp only [hp, Host.Outcome.next.injEq] at h
    simp [h]
  · rcases e with bytes | m
    · rcases bytes with _ | ⟨b, bytes⟩
      · simp only [hp, Host.Outcome.next.injEq] at h
        simp [← h]
      · rcases hd : decode (b :: bytes) with ⟨i, rest⟩ | ⟨op, rest⟩ | _
        · simp only [hp, hd] at h
          exact .inr (.inr (.inr (.inr ⟨_, _, _, _, rfl, hd, h⟩)))
        · simp only [hp, hd, Host.Outcome.next.injEq] at h
          exact .inr (.inr (.inr (.inl ⟨_, _, _, _, rfl, hd, h.symm⟩)))
        · simp [hp, hd] at h
    · simp only [hp, Host.Outcome.next.injEq] at h
      exact .inr (.inr (.inl ⟨_, _, rfl, h.symm⟩))

end Sys2Proof.Machine
end

