-- ==== Sys2Proof/Tests/Slice0.lean ====
section
/-!
SUPPORT. Tests against spec/95_test_vectors.md (the vector is named at each), under its parameters P0; the smoke test of
WellFormed; and, for every statement with hypotheses, a state and operands that meet them (`witness_…`).
-/

namespace Sys2Proof.Tests

open Sys2Proof.Machine

set_option maxRecDepth 8192

/-- The reference instance P0 with RB_CAP 256 (95_test_vectors.md). -/
def p0 : Params := ⟨0x7B, 0x7D, 0x5C, some 256⟩

/-- A core with parameters P0, this MODE and RB, to which the host sends these bytes. -/
def sent (m : Mode) (rb : Memory) (bytes : List Byte) : State :=
  { State.resetWith p0 m with rb := rb, pending := [.commands bytes] }

/-- The serial form of the last response, STATUS and RB after one step. -/
def seen (s : State) : Option (List Byte × Byte × Memory) :=
  match step s with
  | .next t => some (t.responses.getLast?.elim [] Response.bytes, t.status.word, t.rb)
  | _ => none

/-! ### WellFormed and Decode -/

theorem test_wellFormed_refuses_long_operand : (Instr.rbAppend (List.replicate 65536 0)).wf = false := by
  simp only [Instr.wf, Instr.operand, List.length_replicate]
  decide

theorem test_wellFormed_takes_longest_operand : (Instr.rbAppend (List.replicate 65535 0)).wf = true := by
  simp only [Instr.wf, Instr.operand, List.length_replicate]
  decide

/-- R79: `ESCAPE 0x7B` is 01 00 01 7B. -/
theorem test_decode_escape : decode [0x01, 0x00, 0x01, 0x7B] = .instr (.escape [0x7B]) [] := by decide
/-- V-UN-4. -/
theorem test_decode_unescape : decode [0x02, 0x00, 0x02, 0x5C, 0x7B] = .instr (.unescape [0x5C, 0x7B]) [] := by decide
/-- V-PC-8. -/
theorem test_decode_parCompute : decode [0x03, 0x00, 0x02, 0x48, 0x69] = .instr (.parCompute [0x48, 0x69]) [] := by decide
/-- V-PV-1. -/
theorem test_decode_parVerify : decode [0x04, 0x00, 0x02, 0x07, 0x01] = .instr (.parVerify [0x07, 0x01]) [] := by decide
/-- R43, its example. -/
theorem test_decode_crcCompute : decode [0x05, 0x00, 0x02, 0x01, 0x00] = .instr (.crcCompute [0x01, 0x00]) [] := by decide
/-- V-CV-5. -/
theorem test_decode_crcVerify : decode [0x06, 0x00, 0x02, 0x7B, 0x7B] = .instr (.crcVerify [0x7B, 0x7B]) [] := by decide
/-- L3-2 step 1. -/
theorem test_decode_frame : decode [0x07, 0x00, 0x02, 0x7D, 0x41] = .instr (.frame [0x7D, 0x41]) [] := by decide
/-- R79: `DEFRAME` is 08 00 00; V-DF-30 has an operand. -/
theorem test_decode_deframe : decode [0x08, 0x00, 0x00, 0x08, 0x00, 0x01, 0x00] =
    .instr (.deframe []) [0x08, 0x00, 0x01, 0x00] ∧ decode [0x08, 0x00, 0x01, 0x00] = .instr (.deframe [0x00]) [] := by
  decide
/-- V-HI-1. -/
theorem test_decode_rbAppend : decode [0x09, 0x00, 0x02, 0x7B, 0x41] = .instr (.rbAppend [0x7B, 0x41]) [] := by decide
/-- V-HI-5. -/
theorem test_decode_statusRead : decode [0x0A, 0x00, 0x00] = .instr (.statusRead []) [] := by decide
/-- V-HI-7. -/
theorem test_decode_cfgRead : decode [0x0B, 0x00, 0x00] = .instr (.cfgRead []) [] := by decide
/-- LEN is big-endian (R22): 00 01 is one operand byte, and 01 00 asks for 256. -/
theorem test_decode_len_big_endian : decode [0x07, 0x01, 0x00, 0x41] = .truncated := by decide
/-- V-RS-1, V-RS-3. -/
theorem test_decode_reserved : decode [0x00, 0x00, 0x00] = .reserved 0x00 [] ∧
    decode [0xFF, 0x00, 0x00, 0x01] = .reserved 0xFF [0x01] := by decide
/-- Two rows of the opcode table, its operand words zero. -/
theorem test_decodeTableWord : decodeTableWord 8 0x07 = some (.frame []) ∧ decodeTableWord 8 0x0C = none ∧
    decodeTableWord 24 0x020003 = some (.parCompute [0x00, 0x00]) := by decide

/-! ### The commands -/

/-- V-ES-2. -/
theorem test_escape_special : seen (sent .crc8 [] [0x01, 0x00, 0x01, 0x7D]) = some ([0x00, 0x00, 0x02, 0x5C, 0x7D], 0, []) := by
  decide
/-- V-ES-8. -/
theorem test_escape_badLen : seen (sent .crc8 [] [0x01, 0x00, 0x02, 0x41, 0x42]) = some ([0x0F, 0x00, 0x00], 0, []) := by
  decide
/-- V-UN-1, V-UN-2. -/
theorem test_unescape_no_unit : seen (sent .crc8 [] [0x02, 0x00, 0x00]) = some ([0x04, 0x00, 0x00], 0, []) ∧
    seen (sent .crc8 [] [0x02, 0x00, 0x01, 0x5C]) = some ([0x02, 0x00, 0x00], 0, []) := by decide
/-- V-UN-7. -/
theorem test_unescape_raw : seen (sent .crc8 [] [0x02, 0x00, 0x02, 0x41, 0x5C]) =
    some ([0x00, 0x00, 0x02, 0x00, 0x41], 0, []) := by decide
/-- V-PC-5, in CRC8 mode. -/
theorem test_parCompute : seen (sent .crc8 [] [0x03, 0x00, 0x08, 0x31, 0x32, 0x33, 0x34, 0x35, 0x36, 0x37, 0x38]) =
    some ([0x00, 0x00, 0x01, 0x01], 0, []) := by decide
/-- V-PV-3. -/
theorem test_parVerify_whole_byte : seen (sent .parity [] [0x04, 0x00, 0x02, 0x07, 0x03]) =
    some ([0x00, 0x00, 0x01, 0x00], 0, []) := by decide
/-- V-PV-1. -/
theorem test_parVerify_match : seen (sent .parity [] [0x04, 0x00, 0x02, 0x07, 0x01]) =
    some ([0x00, 0x00, 0x01, 0x01], 0, []) := by decide
/-- V-LS-1, V-LS-2, V-LS-3, V-LS-5. -/
theorem test_crcStep : crcStep 0x80 false = 0xD5 ∧ crcStep 0x80 true = 0xD4 ∧ crcStep 0x01 true = 0x03 ∧
    crcStep 0xFF true = 0x2A := by decide
/-- V-CC-18, in PARITY mode. -/
theorem test_crcCompute : seen (sent .parity [] [0x05, 0x00, 0x08, 0x12, 0x34, 0x56, 0x78, 0x9A, 0xBC, 0xDE, 0xF0]) =
    some ([0x00, 0x00, 0x01, 0xF0], 0, []) := by decide
/-- V-CC-26: not the CRC-8/DVB-S2 value 0xBC. -/
theorem test_crc_123456789 : crc [0x31, 0x32, 0x33, 0x34, 0x35, 0x36, 0x37, 0x38, 0x39] = 0x7C := by decide
/-- V-CV-1. -/
theorem test_crcVerify_match : seen (sent .crc8 [] [0x06, 0x00, 0x04, 0x01, 0x02, 0x03, 0x77]) =
    some ([0x00, 0x00, 0x01, 0x01], 0, []) := by decide
/-- V-CV-8: r is not fed to the LFSR. -/
theorem test_crcVerify_excludes_r : seen (sent .crc8 [] [0x06, 0x00, 0x04, 0x01, 0x02, 0x03, 0x00]) =
    some ([0x00, 0x00, 0x01, 0x00], 0, []) := by decide
/-- V-FR-9: two frames. -/
theorem test_frame_two : frame p0 .crc8 [0x01, 0x02, 0x03, 0x04, 0x05, 0x06, 0x07, 0x08, 0x09] =
    [0x7B, 0x01, 0x02, 0x03, 0x04, 0x05, 0x06, 0x07, 0x08, 0x29, 0x7D, 0x7B, 0x09, 0x09, 0x7D] := by decide
/-- V-FR-7: only the check byte escapes. -/
theorem test_frame_check_escapes : seen (sent .crc8 [] [0x07, 0x00, 0x02, 0x01, 0xAE]) =
    some ([0x00, 0x00, 0x06, 0x7B, 0x01, 0xAE, 0x5C, 0x7B, 0x7D], 0, []) := by decide
/-- V-DF-14: the tenth literal. -/
theorem test_deframe_oversize : seen (sent .crc8
      [0x7B, 0x01, 0x02, 0x03, 0x04, 0x05, 0x06, 0x07, 0x08, 0x09, 0x77, 0x7D, 0x7B, 0x00, 0x7D] [0x08, 0x00, 0x00]) =
    some ([0x03, 0x00, 0x00], 0x0F, [0x7D, 0x7B, 0x00, 0x7D]) := by decide
/-- V-DF-16: garbage, a damaged frame, and a good frame. -/
theorem test_deframe_resync : seen (sent .crc8 [0xAA, 0x7B, 0x01, 0x02, 0x7B, 0x01, 0x02, 0x03, 0x77, 0x7D]
    [0x08, 0x00, 0x00]) = some ([0x01, 0x00, 0x03, 0x01, 0x02, 0x03], 0x01, []) := by decide
/-- V-HI-1, with RB `7B` before. -/
theorem test_rbAppend : seen (sent .crc8 [0x7B] [0x09, 0x00, 0x02, 0x7B, 0x41]) =
    some ([0x00, 0x00, 0x00], 0, [0x7B, 0x7B, 0x41]) := by decide
/-- V-HI-3: RB_CAP = 21 and 20 bytes held. -/
theorem test_rbAppend_overflow : seen { sent .crc8 (List.replicate 20 0x41) [0x09, 0x00, 0x02, 0x00, 0x00] with
    params := ⟨0x7B, 0x7D, 0x5C, some 21⟩ } = some ([0x0E, 0x00, 0x00], 0, List.replicate 20 0x41) := by decide
/-- V-HI-6: STATUS after V-DF-8, read and not cleared. -/
theorem test_statusRead : seen { sent .crc8 [] [0x0A, 0x00, 0x00] with status := ⟨some .corrupt, some .checksum⟩ } =
    some ([0x00, 0x00, 0x01, 0x0B], 0x0B, []) := by decide
/-- V-HI-7. -/
theorem test_cfgRead : seen (sent .crc8 [] [0x0B, 0x00, 0x00]) = some ([0x00, 0x00, 0x01, 0x01], 0, []) := by decide
/-- V-RS-4: ILLEGAL wins over any LEN. -/
theorem test_reserved : seen (sent .crc8 [0x41] [0x0C, 0x00, 0x09, 1, 2, 3, 4, 5, 6, 7, 8, 9]) =
    some ([0xFF, 0x00, 0x00], 0, [0x41]) := by decide
/-- 93_implementation_defined.md I11. -/
theorem test_truncated_refused :
    (match step (sent .crc8 [] [0x01, 0x00, 0x01]) with | .refused .truncatedCommand => true | _ => false) = true := by
  decide
/-- R71: a reset between commands samples MODE_IN and empties RB. -/
theorem test_reset_event : (match step { sent .parity [0x7B] [] with pending := [.reset .crc8] } with
    | .next t => decide (t.mode = .crc8 ∧ t.rb = [] ∧ t.status = ⟨none, none⟩) | _ => false) = true := by decide
/-- The first step after reset with a command sent runs it, whatever the parameters are. -/
theorem test_first_step_after_reset : (match step (State.reset.withFetchWord 8 0x07) with
    | .next t => decide (t.responses.length = 1 ∧ t.pending = []) | _ => false) = true := by decide

/-! ### The assembler -/

/-- R79: `FRAME [0x01, 0x02, 0x03]` and `DEFRAME` are 07 00 03 01 02 03 and 08 00 00. -/
theorem test_assemble : assemble p0 .crc8 ["FRAME [0x01, 0x02, 0x03] -- L3".toList, "DEFRAME".toList] =
    some [0x07, 0x00, 0x03, 0x01, 0x02, 0x03, 0x08, 0x00, 0x00] := by decide
/-- An unknown name and a byte with one digit are no lines. -/
theorem test_readLine_refuses : readLine "HDLC 0x7E".toList = none ∧ readLine "ESCAPE 0x7".toList = none := by decide

/-- R79 and R32: FRAME's BADLEN response to a payload of 26209 bytes has no data, so LOOPBACK appends nothing. -/
theorem test_loopback_too_long : (loopbackCommands p0 .crc8 (List.replicate 26209 0#8)).getLast? = some (.rbAppend []) := by
  have h : 26208 < (List.replicate 26209 (0#8)).length := by simp only [List.length_replicate]; decide
  simp only [loopbackCommands, frameResponse_illegal h, List.getLast?_cons_cons, List.getLast?_singleton]

/-! ### Witnesses: hypotheses that can be met -/

/-- Garbage without a START, units of both kinds, in the state `sent .crc8 rb []`. -/
theorem witness_units_meet_hypotheses : (sent .crc8 [] []).params.Wf ∧ (∀ b ∈ [0x01#8, 0x5C#8], b ≠ p0.start) ∧
    (∀ u ∈ [WireUnit.plain 0x41, WireUnit.escaped 0x7B], u.ok p0) := by
  simp [WireUnit.ok, p0, sent, State.resetWith, Params.Wf]

theorem witness_DecodeOfEncode : (Instr.rbAppend (List.replicate 65535 0)).wf = true ∧ (Instr.deframe []).wf = true := by
  simp only [Instr.wf, Instr.operand, List.length_replicate]
  decide

theorem witness_EncodeOfDecode : decode [0x08, 0x00, 0x00, 0x41] = .instr (.deframe []) [0x41] := by decide

theorem witness_StepRunsDecodedCommand :
    (sent .crc8 [] [0x08, 0x00, 0x00]).pending = .commands [0x08, 0x00, 0x00] :: [] ∧
      decode [0x08, 0x00, 0x00] = .instr (.deframe []) [] := by decide

theorem witness_StepsOfTheHostList : State.reset.pending = [] ∧
    State.pending { State.reset with pending := [.commands []] } = .commands [] :: [] ∧
    State.pending { State.reset with pending := [.reset .parity] } = .reset .parity :: [] := ⟨rfl, rfl, rfl⟩

/-- Both sides of the statement: nothing pending, and bytes that end inside a command. -/
theorem witness_OnlyTruncatedCommandsStop : State.reset.pending = [] ∧
    (sent .crc8 [] [0x01]).pending = .commands [0x01] :: [] ∧ decode [0x01] = .truncated := by
  exact ⟨rfl, rfl, by decide⟩

/-- A reserved opcode at both ends of each range, with no operand and with one. -/
theorem witness_CommandChecksInOrder_reserved :
    ((0x00#8).toNat = 0 ∧ ([] : List Byte).length = (0#8).toNat * 256 + (0#8).toNat ∧
      (sent .crc8 [] [0x00, 0x00, 0x00]).pending = .commands (0x00 :: 0x00 :: 0x00 :: ([] ++ [])) :: []) ∧
    (0x0C ≤ (0x0C#8).toNat ∧ [0x55#8].length = (0#8).toNat * 256 + (1#8).toNat ∧
      (sent .crc8 [] [0x0C, 0x00, 0x01, 0x55, 0x08]).pending =
        .commands (0x0C :: 0x00 :: 0x01 :: ([0x55] ++ [0x08])) :: []) ∧
    0x0C ≤ (0xFF#8).toNat := by decide

/-- Operands just below, at and just above the legal lengths. -/
theorem witness_CommandChecksInOrder_lengths :
    (Instr.escape []).operand.length < (lenRange (.escape [])).1 ∧
    (lenRange (.unescape [1, 2, 3])).2 < (Instr.unescape [1, 2, 3]).operand.length ∧
    ((lenRange (.parVerify [0])).1 ≤ (Instr.parVerify [0]).operand.length ∧
      (Instr.parVerify [0]).operand.length ≤ (lenRange (.parVerify [0])).2) := by decide

/-- A command that answers BADLEN, one that answers OVERFLOW, and a reserved opcode with a command after it. -/
theorem witness_ErrorResponsesChangeNothing :
    (∃ t, exec (.escape []) (sent .crc8 [] []) = .next t ∧
      t.responses = (sent .crc8 [] []).responses ++ [⟨.badLen, []⟩]) ∧
    (∃ t, exec (.rbAppend [0x41]) { sent .crc8 [] [] with params := ⟨0x7B, 0x7D, 0x5C, some 0⟩ } = .next t ∧
      t.responses = (sent .crc8 [] []).responses ++ [⟨.overflow, []⟩]) ∧
    decode [0x0C, 0x00, 0x01, 0x55, 0x08] = .reserved 0x0C [0x08] :=
  ⟨⟨_, rfl, by decide⟩, ⟨_, rfl, by decide⟩, by decide⟩

theorem witness_ResponsesFitRlen : ∃ t, exec (.parCompute []) (sent .crc8 [] []) = .next t ∧
    t.responses = (sent .crc8 [] []).responses ++ [⟨.ok, [0x00]⟩] := ⟨_, rfl, by decide⟩

theorem witness_EscapeResult : p0.Wf := by decide

theorem witness_UnescapeResult : [0x5C#8, 0x5C#8].length ≤ 2 ∧ ([] : List Byte).length ≤ 2 := by decide

/-- The operand lengths of the compute commands where their clauses meet: 8 and 9. -/
theorem witness_compute_lengths : (List.replicate 8 (0xFF#8)).length ≤ 8 ∧ 8 < (List.replicate 9 (0xFF#8)).length := by
  decide

/-- The operand lengths of the verify commands where their clauses meet: 8 and a check byte, none, and 10; and a check byte
that is no parity. -/
theorem witness_verify_lengths : (List.replicate 8 (0xFF#8)).length ≤ 8 ∧ ([] : List Byte).length = 0 ∧
    9 < (List.replicate 10 (0xFF#8)).length ∧ ((0x02#8) ≠ 0x00 ∧ (0x02#8) ≠ 0x01) := by decide

theorem witness_equal_lengths : [0x01#8, 0x02#8].length = [0x00#8, 0x80#8].length := by decide

theorem witness_CrcDetectsSingleBitErrors : 1 < [0x00#8, 0x41#8].length ∧ 7 < 8 := by decide

/-- Payloads at the two sides of FRAME_PAYLOAD_MAX. -/
theorem witness_FrameResult : (List.replicate 26208 (0#8)).length ≤ 26208 ∧ 26208 < (List.replicate 26209 (0#8)).length := by
  simp only [List.length_replicate]
  decide

theorem witness_FrameSplitsAtMultiplesOfEight : (List.replicate 8 (0#8)).length % 8 = 0 ∧
    List.replicate 8 (0#8) ≠ [] ∧ [0x41#8] ≠ [] := by decide

theorem witness_SeekStartDropsGarbage : (∀ b ∈ (sent .crc8 [0x01, 0x7D] []).rb, b ≠ p0.start) ∧
    (sent .crc8 [0x5C, 0x7B, 0x00, 0x7D] []).rb = [0x5C] ++ p0.start :: [0x00, 0x7D] := by decide

/-- No unit, and nine of them. -/
theorem witness_OpenFrameIsIncomplete :
    (sent .crc8 [0x01, 0x7B] []).rb = [0x01] ++ p0.start :: unitBytes p0 [] ∧
    (∀ u ∈ List.replicate 9 (WireUnit.escaped 0x7B), u.ok p0) ∧ (List.replicate 9 (WireUnit.escaped 0x7B)).length ≤ 9 ∧
    (sent .crc8 (0x7B :: (List.replicate 9 [0x5C, 0x7B]).flatten) []).rb =
      [] ++ p0.start :: unitBytes p0 (List.replicate 9 (WireUnit.escaped 0x7B)) := by
  refine ⟨by decide, ?_, by decide, by decide⟩
  intro u hu
  rw [List.eq_of_mem_replicate hu]
  trivial

/-- The same literal plain and escaped, and a frame that ends in ESC. -/
theorem witness_EscapeUnitIsOneLiteral : literals [.plain 0x41] = literals [.escaped 0x41] ∧
    WireUnit.ok p0 (.plain 0x41) ∧ WireUnit.ok p0 (.escaped 0x41) ∧
    (sent .crc8 [0x7B, 0x41, 0x5C] []).rb = [] ++ p0.start :: (unitBytes p0 [.plain 0x41] ++ [p0.esc]) := by
  refine ⟨by decide, by simp [WireUnit.ok, p0], trivial, by decide⟩

/-- `[START, STOP]`; a frame of the check byte alone; and one of 8 data bytes. -/
theorem witness_StopEndsFrame : (sent .crc8 [0x7B, 0x7D, 0x41] []).rb = [] ++ p0.start :: p0.stop :: [0x41] ∧
    (sent .crc8 [0x7B, 0x00, 0x7D] []).rb = [] ++ p0.start :: (unitBytes p0 ([] ++ [.plain 0x00]) ++ p0.stop :: []) ∧
    WireUnit.ok p0 (.plain 0x00) ∧ (List.replicate 8 (WireUnit.plain 0x00)).length ≤ 8 ∧
    (sent .crc8 ([0x7B] ++ List.replicate 9 0x00 ++ [0x7D]) []).rb =
      [] ++ p0.start :: (unitBytes p0 (List.replicate 8 (.plain 0x00) ++ [.plain 0x00]) ++ p0.stop :: []) := by
  refine ⟨by decide, by decide, by simp [WireUnit.ok, p0], by decide, by decide⟩

theorem witness_StartInsideFrameResynchronises : WireUnit.ok p0 (.plain 0x01) ∧
    (sent .crc8 [0xAA, 0x7B, 0x01, 0x7B, 0x00, 0x7D] []).rb =
      [0xAA] ++ p0.start :: (unitBytes p0 [.plain 0x01] ++ p0.start :: [0x00, 0x7D]) := by
  refine ⟨by simp [WireUnit.ok, p0], by decide⟩

theorem witness_TenthLiteralIsOversize : (List.replicate 10 (WireUnit.plain 0x01)).length = 10 ∧
    WireUnit.ok p0 (.plain 0x01) ∧ (sent .crc8 ([0x7B] ++ List.replicate 10 0x01 ++ [0x7D]) []).rb =
      [] ++ p0.start :: (unitBytes p0 (List.replicate 10 (.plain 0x01)) ++ [0x7D]) := by
  refine ⟨by decide, by simp [WireUnit.ok, p0], by decide⟩

theorem witness_DeframeFinishesOnce : [0x00#8] ≠ [] := by decide

theorem witness_IncompleteResidueIsBounded : p0.Wf ∧
    ∃ t, exec (.deframe []) (sent .crc8 [0x09, 0x7B, 0x01] []) = .next t ∧ t.status.outcome = some .incomplete :=
  ⟨by decide, _, rfl, by decide⟩

/-- A DONE and a CORRUPT. -/
theorem witness_DeframeMakesProgress :
    (∃ t, exec (.deframe []) (sent .crc8 [0x7B, 0x00, 0x7D] []) = .next t ∧ t.status.outcome = some .done) ∧
    (∃ t, exec (.deframe []) (sent .crc8 [0x7B, 0x7D] []) = .next t ∧ t.status.outcome = some .corrupt) :=
  ⟨⟨_, rfl, by decide⟩, ⟨_, rfl, by decide⟩⟩

theorem witness_DamagedFrameThenGoodFrame : WireUnit.ok p0 (.plain 0x01) ∧
    (sent .crc8 [0xAA, 0x7B, 0x01, 0x7B, 0x41, 0x41, 0x7D] []).rb =
      [0xAA] ++ [p0.start] ++ unitBytes p0 [.plain 0x01] ++ frame p0 .crc8 [0x41] := by
  refine ⟨by simp [WireUnit.ok, p0], by decide⟩

/-- V-DF-9: a data bit flipped; and the check byte flipped. -/
theorem witness_SingleBitCorruptionIsDetected :
    check .crc8 (literals [.plain 0x41]) = (WireUnit.plain 0x41).literal ∧
    (∀ u ∈ [WireUnit.plain 0x41, .plain 0x41], u.ok p0) ∧
    (∀ u ∈ ([WireUnit.plain 0x41] ++ [WireUnit.plain 0x41]).modify 0 (WireUnit.flip 0), u.ok p0) ∧
    (∀ u ∈ ([WireUnit.plain 0x41] ++ [WireUnit.plain 0x41]).modify 1 (WireUnit.flip 7), u.ok p0) ∧
    (sent .crc8 [0x7B, 0x40, 0x41, 0x7D] []).rb = p0.start :: (unitBytes p0
      (([WireUnit.plain 0x41] ++ [WireUnit.plain 0x41]).modify 0 (WireUnit.flip 0)) ++ p0.stop :: []) := by
  refine ⟨by decide, by simp [WireUnit.ok, p0], ?_, ?_, by decide⟩ <;> simp [WireUnit.ok, WireUnit.flip, p0, List.modify]

/-- A bounded buffer with just the room, and an unbounded one. -/
theorem witness_LoopbackReturnsPayload : p0.Wf ∧ (sent .crc8 [] []).rb = [] ∧ [0x7B#8].length ≤ 26208 ∧
    (∀ c ∈ some 256, (frame p0 .crc8 [0x7B]).length ≤ c) ∧ (∀ c ∈ (none : Option Nat), (frame p0 .crc8 [0x7B]).length ≤ c) := by
  refine ⟨by decide, rfl, by decide, ?_, by simp⟩
  intro c hc
  cases hc
  decide

/-- RB_CAP = 21 with 20 bytes held: one more byte fits, two do not. -/
theorem witness_RbAppendResult : [0x41#8].length ≤ 65535 ∧ (∃ c ∈ some 21, c < (List.replicate 20 (0#8)).length + 2) ∧
    (∀ c ∈ some 21, (List.replicate 20 (0#8)).length + 1 ≤ c) ∧ 19 < (List.replicate 20 (0#8)).length := by
  refine ⟨by decide, ⟨21, rfl, by decide⟩, ?_, by decide⟩
  intro c hc
  cases hc
  decide

theorem witness_StatusReadResult : [0x00#8] ≠ [] ∧
    State.status { State.reset with status := ⟨some .corrupt, some .checksum⟩ } = ⟨some .corrupt, some .checksum⟩ := by
  exact ⟨by decide, rfl⟩

theorem witness_ResetState :
    State.pending { State.reset with pending := [.reset .crc8, .commands [0x0B, 0x00, 0x00]] } =
      .reset .crc8 :: [.commands [0x0B, 0x00, 0x00]] := rfl

/-- Every command answers a next state, so the frame's hypothesis is met for each. -/
theorem witness_CommandFrame : ∀ (i : Instr) (s : State), ∃ t, exec i s = .next t := by
  intro i s
  cases i <;> exact ⟨_, rfl⟩

/-- A step that writes STATUS by a DEFRAME, and one by a reset. -/
theorem witness_OnlyDeframeAndResetWriteStatus :
    (∃ t, step (sent .crc8 [] [0x08, 0x00, 0x00]) = .next t ∧ t.status ≠ (sent .crc8 [] []).status) ∧
    (∃ t, step { sent .crc8 [] [] with pending := [.reset .crc8], status := ⟨some .done, none⟩ } = .next t ∧
      t.status ≠ ⟨some .done, none⟩) :=
  ⟨⟨_, rfl, by decide⟩, ⟨_, rfl, by decide⟩⟩

/-- A reset that changes MODE, and a command, which is no reset. -/
theorem witness_ModeLatchedAtReset :
    (State.pending { sent .parity [] [] with pending := [.reset .crc8] } = .reset .crc8 :: [] ∧
      (sent .parity [] []).mode ≠ .crc8) ∧
    ((∀ m events, (sent .parity [] [0x0B, 0x00, 0x00]).pending ≠ .reset m :: events) ∧
      ∃ t, step (sent .parity [] [0x0B, 0x00, 0x00]) = .next t) ∧ 1 ≤ 7 :=
  ⟨⟨rfl, by decide⟩, ⟨by simp [sent], _, rfl⟩, by decide⟩

theorem witness_ParametersNeverChange : ∃ t, stepMany 2 (sent .crc8 [] [0x08, 0x00, 0x00]) = .next t := ⟨_, rfl⟩

theorem witness_StepKeepsInvariant : (State.resetWith p0 .crc8).Inv ∧
    ∃ t, step (State.resetWith p0 .crc8) = .next t := by
  refine ⟨⟨by decide, by decide, ?_, by decide, by decide, by decide⟩, ⟨_, rfl⟩⟩
  simp [Status.legal, State.resetWith, Status.atReset]

/-- Payloads at the two sides of FRAME_PAYLOAD_MAX are those of `witness_FrameResult`; commands that fit LEN, and one that
does not. -/
theorem witness_AssemblerForms : (∀ i ∈ [Instr.deframe [], .escape [0x7B]], i.wf = true) ∧
    Instr.wf (.rbAppend (List.replicate 65536 0)) = false := ⟨by decide, test_wellFormed_refuses_long_operand⟩

/-- A run that goes on, and one that is refused. -/
theorem witness_TransientsAreUnobservable : (∃ t, stepMany 1 (sent .crc8 [] [0x08, 0x00, 0x00]) = .next t) ∧
    (∃ r, stepMany 1 (sent .crc8 [] [0x08]) = .refused r) := ⟨⟨_, rfl⟩, ⟨_, rfl⟩⟩

end Sys2Proof.Tests
end

section
/-!
SUPPORT. What a command does, said once as an `Effect`: it depends on the parameters, MODE and RB alone, on STATUS only for
STATUS_READ, and never on the transient registers (spec/10_state.md R10, R12, R14). The statements about who reads and who
writes a register follow from it.
-/

namespace Sys2Proof.Machine

/-! ### The effect of a command -/

/-- What a command does to a state: RB and the response, STATUS when it writes it, and the transient registers from what
they were. -/
structure Effect where
  rb : Memory
  status : Option Status
  response : Response
  transient : Transient → Transient

/-- The state that an effect leaves. -/
def Effect.apply (e : Effect) (s : State) : State :=
  (s.answered e.rb (e.status.getD s.status) e.response.code e.response.data).withTransient (e.transient s.transient)

/-- The effect of a command on `s` that only answers. -/
def Effect.answer (s : State) (c : ResponseCode) (d : List Byte) : Effect := ⟨s.rb, none, ⟨c, d⟩, id⟩

@[simp] theorem Effect.answer_status (s : State) (c : ResponseCode) (d : List Byte) :
    (Effect.answer s c d).status = none := rfl

/-- The transient registers with the deframer's as the scan `e` leaves them (R18). -/
def Transient.afterScan (e : ScanEnd) (tr : Transient) : Transient :=
  { tr with phase := e.phase, cursor := e.cursor, lits := e.lits }

/-- The transient registers after computing CHECK(MODE, w) (R16). -/
def Transient.afterCheck (m : Mode) (w : List Byte) (tr : Transient) : Transient :=
  { tr with acc := accAfter m tr.acc w }

/-- The effect of `finish` at the end of the scan `e`. -/
def Effect.finishScan (e : ScanEnd) (o : FrameOutcome) (r : Option CorruptReason) : Effect :=
  ⟨e.rb, some ⟨some o, r⟩, ⟨o.code, []⟩, .afterScan e⟩

/-- `e` is what `run` does to `s`, whatever STATUS and the transient registers hold. -/
def Effect.Of (e : Effect) (run : State → State) (s : State) : Prop :=
  ∀ (u : Status) (tr : Transient),
    run { s with status := u, transient := tr } = e.apply { s with status := u, transient := tr }

/-- `e` is what the command `i` does to `s`, whatever the transient registers hold, and whatever STATUS holds unless `i` is
STATUS_READ. -/
def Effect.OfInstr (e : Effect) (i : Instr) (s : State) : Prop :=
  ∀ (u : Status) (tr : Transient), ((∃ o, i = .statusRead o) → u = s.status) →
    exec i { s with status := u, transient := tr } = .next (e.apply { s with status := u, transient := tr })

theorem exec_of_illegal {i : Instr} (hl : legalLen i = false) (s : State) : exec i s = .next (s.reject .badLen) := by
  cases i <;> exact congrArg Host.Outcome.next (guardLen_illegal hl s _)

/-- A command of legal length has the effect of its run, when the run does not read STATUS. -/
theorem Effect.OfInstr.of_run {i : Instr} {e : Effect} {run : State → State} {s : State} (hl : legalLen i = true)
    (hexec : ∀ s', exec i s' = .next (guardLen i s' (run s'))) (h : e.Of run s) : e.OfInstr i s :=
  fun u tr _ => by rw [hexec, guardLen_legal hl, h u tr]

/-- The judgement at STOP writes both fields of STATUS and reads neither (R14, R57). -/
theorem judge_effect (s : State) (l : List Byte) :
    ∃ e : Effect, e.status.isSome = true ∧ e.Of (fun s' => s'.judge l) s := by
  rcases hc : splitCheck l with _ | ⟨d, r⟩
  · refine ⟨⟨s.rb, some ⟨some .corrupt, some .malformed⟩, ⟨.corrupt, []⟩, id⟩, rfl, fun u tr => ?_⟩
    simp only [State.judge, hc]
    rfl
  · by_cases hv : verify s.mode d r = true
    · refine ⟨⟨s.rb, some ⟨some .done, none⟩, ⟨.done, d⟩, .afterCheck s.mode d⟩, rfl, fun u tr => ?_⟩
      simp only [State.judge, hc, hv, if_true]
      rfl
    · refine ⟨⟨s.rb, some ⟨some .corrupt, some .checksum⟩, ⟨.corrupt, []⟩, .afterCheck s.mode d⟩, rfl,
        fun u tr => ?_⟩
      simp only [State.judge, hc, hv]
      rfl

/-- A DEFRAME writes both fields of STATUS and reads neither (R14, R58). -/
theorem deframe_effect (s : State) : ∃ e : Effect, e.status.isSome = true ∧ e.Of State.deframe s := by
  let e := deframeScan s.params s.rb
  cases he : e.event with
  | noStart => exact ⟨.finishScan e .incomplete none, rfl, fun u tr => by simp only [State.deframe, e, he]; rfl⟩
  | endOfBuffer => exact ⟨.finishScan e .incomplete none, rfl, fun u tr => by simp only [State.deframe, e, he]; rfl⟩
  | tenthLiteral =>
    exact ⟨.finishScan e .corrupt (some .oversize), rfl, fun u tr => by simp only [State.deframe, e, he]; rfl⟩
  | stopDelimiter =>
    obtain ⟨j, hj, hjudge⟩ := judge_effect (s.afterScan e) e.lits
    refine ⟨{ j with transient := j.transient ∘ .afterScan e }, hj, fun u tr => ?_⟩
    simp only [State.deframe, e, he]
    exact hjudge u _

/-- Every command has an effect, which writes STATUS exactly when the command is a DEFRAME without an operand. -/
theorem exec_effect (i : Instr) (s : State) :
    ∃ e : Effect, (e.status.isSome = true ↔ i = .deframe []) ∧ e.OfInstr i s := by
  rcases hl : legalLen i with _ | _
  · have hi : i ≠ .deframe [] := by rintro rfl; cases hl
    exact ⟨.answer s .badLen [], by simp [hi], fun u tr _ => exec_of_illegal hl _⟩
  · cases i with
    | escape o =>
      exact ⟨.answer s .ok (escapeAll s.params o), by simp, .of_run hl (fun _ => rfl) fun _ _ => rfl⟩
    | unescape o =>
      exact ⟨.answer s (unescape s.params o).response.code (unescape s.params o).response.data, by simp,
        .of_run hl (fun _ => rfl) fun _ _ => rfl⟩
    | parCompute o => exact ⟨.answer s .ok [par o], by simp, .of_run hl (fun _ => rfl) fun _ _ => rfl⟩
    | parVerify o =>
      rcases hc : splitCheck o with _ | ⟨w, r⟩
      · simp [splitCheck_eq_none.mp hc, legalLen] at hl
      · refine ⟨.answer s .ok [boolByte (parVerify w r)], by simp, .of_run hl (fun _ => rfl) fun u tr => ?_⟩
        simp only [hc]
        rfl
    | crcCompute o =>
      exact ⟨⟨s.rb, none, ⟨.ok, [crc o]⟩, fun tr => { tr with acc := crcAcc o }⟩, by simp,
        .of_run hl (fun _ => rfl) fun _ _ => rfl⟩
    | crcVerify o =>
      rcases hc : splitCheck o with _ | ⟨w, r⟩
      · simp [splitCheck_eq_none.mp hc, legalLen] at hl
      · refine ⟨⟨s.rb, none, ⟨.ok, [boolByte (crcVerify w r)]⟩, fun tr => { tr with acc := crcAcc w }⟩, by simp,
          .of_run hl (fun _ => rfl) fun u tr => ?_⟩
        simp only [hc]
        rfl
    | frame o =>
      let w := (subframes o).getLastD []
      exact ⟨⟨s.rb, none, ⟨.ok, frame s.params s.mode o⟩, fun tr => .afterCheck s.mode w { tr with work := w }⟩, by simp,
        .of_run hl (fun _ => rfl) fun _ _ => rfl⟩
    | deframe o =>
      obtain rfl : o = [] := by simpa [legalLen] using hl
      obtain ⟨e, he, hdeframe⟩ := deframe_effect s
      exact ⟨e, by simp [he], .of_run hl (fun _ => rfl) hdeframe⟩
    | rbAppend o =>
      rcases hf : s.rb.fits s.params.rbCap o.length with _ | _
      · exact ⟨.answer s .overflow [], by simp, .of_run hl (fun _ => rfl) fun _ _ => by simp only [hf]; rfl⟩
      · exact ⟨⟨s.rb.append o, none, ⟨.ok, []⟩, id⟩, by simp,
          .of_run hl (fun _ => rfl) fun _ _ => by simp only [hf]; rfl⟩
    | statusRead o =>
      refine ⟨.answer s .ok [s.status.word], by simp, fun u tr hu => ?_⟩
      rw [hu ⟨o, rfl⟩]
      exact congrArg Host.Outcome.next (guardLen_legal hl _ _)
    | cfgRead o => exact ⟨.answer s .ok [modeWord s.mode], by simp, .of_run hl (fun _ => rfl) fun _ _ => rfl⟩

theorem Effect.OfInstr.exec_eq {e : Effect} {i : Instr} {s : State} (h : e.OfInstr i s) : exec i s = .next (e.apply s) :=
  h s.status s.transient fun _ => rfl

/-! ### MODE and STATUS -/

/-- No command changes CFG.MODE (R12). -/
theorem exec_mode {i : Instr} {s t : State} (h : exec i s = .next t) : t.mode = s.mode := by
  obtain ⟨e, -, he⟩ := exec_effect i s
  cases he.exec_eq.symm.trans h
  rfl

@[simp] theorem Status.word_atReset : Status.atReset.word = 0x00 := by decide

/-- No command but a DEFRAME without an operand writes STATUS (R14). -/
theorem exec_status {i : Instr} {s t : State} (hi : i ≠ .deframe []) (h : exec i s = .next t) : t.status = s.status := by
  obtain ⟨e, hst, he⟩ := exec_effect i s
  have hnone : e.status = none := by simpa using mt hst.mp hi
  cases he.exec_eq.symm.trans h
  simp [Effect.apply, hnone]

/-- A DEFRAME gives the same next state whatever STATUS was (R14). -/
theorem exec_deframe_of_status {s t : State} (u : Status) (h : exec (.deframe []) s = .next t) :
    exec (.deframe []) { s with status := u } = .next t := by
  obtain ⟨e, hst, he⟩ := exec_effect (.deframe []) s
  obtain ⟨v, hv⟩ := Option.isSome_iff_exists.mp (hst.mpr rfl)
  have hu := he u s.transient (by simp)
  rw [hu, ← h, he.exec_eq]
  simp [Effect.apply, hv, State.answered, State.withTransient]

/-- Another STATUS stays, and changes nothing else, under every command but STATUS_READ and DEFRAME (R14). -/
theorem exec_of_status {i : Instr} {s t : State} (u : Status) (hread : ∀ o, i ≠ .statusRead o)
    (hdeframe : ∀ o, i ≠ .deframe o) (h : exec i s = .next t) :
    exec i { s with status := u } = .next { t with status := u } := by
  obtain ⟨e, hst, he⟩ := exec_effect i s
  have hnone : e.status = none := by simpa using mt hst.mp (hdeframe [])
  have hu := he u s.transient fun ⟨o, ho⟩ => absurd ho (hread o)
  cases he.exec_eq.symm.trans h
  rw [hu]
  simp [Effect.apply, hnone, State.answered, State.withTransient]

theorem step_of_reset {s : State} {m : Mode} {events : List HostEvent} (h : s.pending = .reset m :: events) :
    step s = .next (State.resetCore { s with pending := events } m) := by
  simp [step, fetch, h]

theorem modeWord_getLsbD_of_pos (m : Mode) {k : Nat} (hk : 1 ≤ k) : (modeWord m).getLsbD k = false := by
  have : k ≠ 0 := by omega
  cases m <;> simp [modeWord, BitVec.getLsbD_one, this]

/-- A step that takes no reset leaves CFG.MODE as it was (R12). -/
theorem step_mode {s t : State} (hreset : ∀ m events, s.pending ≠ .reset m :: events) (h : step s = .next t) :
    t.mode = s.mode := by
  rcases step_cases h with ⟨-, rfl⟩ | ⟨events, -, rfl⟩ | ⟨m, events, hp, -⟩ | ⟨bytes, events, op, rest, -, -, rfl⟩ |
    ⟨bytes, events, i, rest, -, -, hexec⟩
  · rfl
  · rfl
  · exact absurd hp (hreset m events)
  · rfl
  · exact (exec_mode hexec :)

/-! ### The transient registers -/

/-- Two outcomes that differ at most in the transient registers: two next states, or the same refusal. -/
inductive SameUpToTransient : Host.Outcome State Fault Refusal → Host.Outcome State Fault Refusal → Prop where
  | next (t : State) (tr : Transient) : SameUpToTransient (.next t) (.next (t.withTransient tr))
  | refused (r : Refusal) : SameUpToTransient (.refused r) (.refused r)

theorem SameUpToTransient.exists_next {t : State} {b : Host.Outcome State Fault Refusal}
    (h : SameUpToTransient (.next t) b) : ∃ tr, b = .next (t.withTransient tr) := by
  cases h with
  | next _ tr => exact ⟨tr, rfl⟩

theorem SameUpToTransient.eq_refused {r : Refusal} {b : Host.Outcome State Fault Refusal}
    (h : SameUpToTransient (.refused r) b) : b = .refused r := by
  cases h
  rfl

/-- No command observes a transient register (R10). -/
theorem exec_sameUpToTransient (i : Instr) (s : State) (tr : Transient) :
    SameUpToTransient (exec i s) (exec i (s.withTransient tr)) := by
  obtain ⟨e, -, he⟩ := exec_effect i s
  have htr : exec i (s.withTransient tr) = .next (e.apply (s.withTransient tr)) := he s.status tr fun _ => rfl
  rw [he.exec_eq, htr]
  exact .next (e.apply s) (e.transient tr)

/-- What a fetch finds, in a state with other values in the transient registers. -/
def Fetched.withTransient (tr : Transient) : Fetched → Fetched
  | .idle => .idle
  | .blank s => .blank (s.withTransient tr)
  | .reset m s => .reset m (s.withTransient tr)
  | .reserved s => .reserved (s.withTransient tr)
  | .truncated => .truncated
  | .instr i s => .instr i (s.withTransient tr)

theorem fetch_withTransient (s : State) (tr : Transient) :
    fetch (s.withTransient tr) = (fetch s).withTransient tr := by
  unfold fetch
  rw [State.withTransient_pending]
  rcases s.pending with _ | ⟨(_ | ⟨b, bytes⟩) | m, events⟩
  case cons.commands.cons =>
    dsimp only
    cases decode (b :: bytes) <;> rfl
  all_goals rfl

/-- No step observes a transient register (R10). -/
theorem step_sameUpToTransient (s : State) (tr : Transient) :
    SameUpToTransient (step s) (step (s.withTransient tr)) := by
  unfold step
  rw [fetch_withTransient]
  cases fetch s with
  | idle => exact .next s tr
  | blank s' => exact .next s' tr
  | reset m s' => exact .next (s'.resetCore m) tr
  | reserved s' => exact .next (s'.reject .illegal) tr
  | truncated => exact .refused _
  | instr i s' => exact exec_sameUpToTransient i s' tr

/-- No run observes a transient register (R10). -/
theorem stepMany_sameUpToTransient (k : Nat) (s : State) (tr : Transient) :
    SameUpToTransient (stepMany k s) (stepMany k (s.withTransient tr)) := by
  induction k generalizing s tr with
  | zero => exact .next s tr
  | succ k ih =>
    have hstep := step_sameUpToTransient s tr
    unfold stepMany
    generalize step s = a, step (s.withTransient tr) = b at hstep
    cases hstep with
    | next t tr' => exact ih t tr'
    | refused r => exact .refused r

/-! ### The obligations -/

/-- Settles O54: by induction on the number of steps, each of which keeps two outcomes the same up to the transient
registers. -/
theorem transientsAreUnobservable : Obligations.TransientsAreUnobservable := by
  intro k s tr
  have h := stepMany_sameUpToTransient k s tr
  refine ⟨fun t ht => ?_, fun r hr => ?_⟩
  · exact (ht ▸ h).exists_next
  · exact (hr ▸ h).eq_refused

/-- Settles O48: of all that a step can do, only a reset and a DEFRAME touch STATUS; who reads it is in the commands'
effects. -/
theorem onlyDeframeAndResetWriteStatus : Obligations.OnlyDeframeAndResetWriteStatus := by
  refine ⟨fun s t hstep hne => ?_, fun s t u h => exec_deframe_of_status u h,
    fun i s t u hread hdeframe h => exec_of_status u hread hdeframe h⟩
  rcases step_cases hstep with ⟨-, rfl⟩ | ⟨events, -, rfl⟩ | ⟨m, events, hp, rfl⟩ | ⟨bytes, events, op, rest, -, -, rfl⟩ |
    ⟨bytes, events, i, rest, hp, hd, hexec⟩
  · exact absurd rfl hne
  · exact absurd rfl hne
  · exact .inl ⟨m, events, hp, Status.word_atReset⟩
  · exact absurd rfl hne
  · by_cases hi : i = .deframe []
    · exact .inr ⟨bytes, rest, events, hp, hi ▸ hd⟩
    · exact absurd (exec_status hi hexec) hne

/-- Settles O49: a reset latches MODE, and no other thing that a step can do writes it. -/
theorem modeLatchedAtReset : Obligations.ModeLatchedAtReset :=
  ⟨fun _ _ _ hp => ⟨_, step_of_reset hp, rfl⟩, fun _ _ hreset h => step_mode hreset h, rfl, rfl,
    fun m _ hk => modeWord_getLsbD_of_pos m hk, fun _ => ⟨rfl, rfl⟩⟩

end Sys2Proof.Machine
end

section
/-!
SUPPORT. What each command leaves in RB (spec/20_memory.md R21): RB_APPEND puts bytes at the back, DEFRAME takes bytes from
the front, and no other command touches it.
-/

namespace Sys2Proof.Machine

/-- A command leaves in RB what its run leaves there, or, at BADLEN, what was there. -/
theorem guardLen_rb_cases (i : Instr) (s run : State) :
    (guardLen i s run).rb = s.rb ∨ (guardLen i s run).rb = run.rb := by
  rcases guardLen_cases i s run with ⟨-, e⟩ | ⟨-, e⟩
  · exact .inr (by rw [e])
  · exact .inl (by rw [e, State.reject_rb])

/-- A command whose run leaves RB alone leaves it alone whatever its operand's length. -/
theorem guardLen_rb {i : Instr} {s run : State} (h : run.rb = s.rb) : (guardLen i s run).rb = s.rb :=
  (guardLen_rb_cases i s run).elim id (·.trans h)

/-- Only RB_APPEND and DEFRAME touch RB (R21). -/
theorem exec_rb {i : Instr} {s t : State} (happend : ∀ o, i ≠ .rbAppend o) (hdeframe : ∀ o, i ≠ .deframe o)
    (h : exec i s = .next t) : t.rb = s.rb := by
  cases i with
  | rbAppend o => exact absurd rfl (happend o)
  | deframe o => exact absurd rfl (hdeframe o)
  | parVerify o | crcVerify o => cases h; exact guardLen_rb (by split <;> rfl)
  | escape o | unescape o | parCompute o | crcCompute o | frame o | statusRead o | cfgRead o =>
    cases h; exact guardLen_rb rfl

/-- RB_APPEND puts all of its operand at the back, or none of it (R60). -/
theorem exec_rbAppend_rb {o : List Byte} {s t : State} (h : exec (.rbAppend o) s = .next t) :
    t.rb = s.rb ∨ t.rb = s.rb ++ o := by
  cases h
  by_cases hf : s.rb.fits s.params.rbCap o.length = true
  · rw [if_pos hf]
    exact guardLen_rb_cases ..
  · rw [if_neg hf]
    exact .inl (guardLen_rb rfl)

/-- The judgement at STOP leaves RB as the scan left it. -/
@[simp] theorem State.judge_rb (s : State) (l : List Byte) : (s.judge l).rb = s.rb := by
  obtain ⟨tr, ⟨-, h⟩ | ⟨d, r, -, ⟨-, h⟩ | ⟨-, h⟩⟩⟩ := s.judge_cases l <;> rw [h] <;> rfl

/-- A DEFRAME leaves in RB what its scan left there, whatever its outcome. -/
theorem State.deframe_rb (s : State) : s.deframe.rb = (deframeScan s.params s.rb).rb := by
  rcases s.deframe_cases with ⟨-, h⟩ | ⟨-, h⟩ | ⟨-, h⟩ <;> simp [h]

/-- A DEFRAME drops some of the bytes RB holds, from the front (R21). -/
theorem State.deframe_rb_drop (s : State) : ∃ n, n ≤ s.rb.length ∧ s.deframe.rb = s.rb.dropFront n := by
  obtain ⟨n, hn⟩ := deframeScan_rb s.params s.rb
  refine ⟨min n s.rb.length, Nat.min_le_right .., ?_⟩
  rw [s.deframe_rb, hn, Memory.dropFront, List.drop_eq_drop_iff]
  simp

/-- DEFRAME drops bytes from the front of RB, or leaves RB as it is when it answers BADLEN. -/
theorem exec_deframe_rb {o : List Byte} {s t : State} (h : exec (.deframe o) s = .next t) :
    t.rb = s.rb ∨ ∃ n, n ≤ s.rb.length ∧ t.rb = s.rb.dropFront n := by
  cases h
  refine (guardLen_rb_cases (.deframe o) s s.deframe).imp id fun hrb => ?_
  obtain ⟨n, hn, hdrop⟩ := s.deframe_rb_drop
  exact ⟨n, hn, hrb.trans hdrop⟩

/-- Settles O47: by the command, RB_APPEND and DEFRAME being the only ones that touch RB. -/
theorem rbHasTwoAccesses : Obligations.RbHasTwoAccesses := by
  intro i s t h
  cases i with
  | rbAppend o => exact (exec_rbAppend_rb h).imp id fun hrb => .inl ⟨o, rfl, hrb⟩
  | deframe o =>
    refine (exec_deframe_rb h).imp id fun ⟨n, hn, hrb⟩ => .inr ⟨o, n, rfl, hn, hrb, fun a => ?_⟩
    rw [hrb, Memory.read_dropFront]
  | _ => exact .inl (exec_rb (by simp) (by simp) h)

end Sys2Proof.Machine
end

section
/-!
SUPPORT. The escaper (spec/40_escaper.md R34, R35): which bytes have a wire form of their own, how many they are, and what
the two commands answer to an operand of legal length.
-/

namespace Sys2Proof.Machine

/-! ### The special bytes -/

theorem isSpecial_iff (p : Params) (b : Byte) : isSpecial p b = true ↔ b = p.start ∨ b = p.stop ∨ b = p.esc := by
  simp [isSpecial, or_assoc]

theorem escape_eq_ite (p : Params) (b : Byte) :
    escape p b = if b = p.start ∨ b = p.stop ∨ b = p.esc then [p.esc, b] else [b] := by
  simp only [escape, isSpecial_iff]

@[simp] theorem escapeAll_singleton (p : Params) (b : Byte) : escapeAll p [b] = escape p b :=
  List.flatMap_singleton ..

/-- A byte is its own wire form exactly when it is not special: the wire form of a special byte has two bytes. -/
theorem escape_beq_self (p : Params) (b : Byte) : (escape p b == [b]) = !isSpecial p b := by
  unfold escape
  cases isSpecial p b <;> simp

/-- Every value of a byte, in order. -/
def allBytes : List Byte := (List.range 256).map (BitVec.ofNat 8)

theorem allBytes_length : allBytes.length = 256 := by simp [allBytes]

theorem mem_allBytes (b : Byte) : b ∈ allBytes :=
  List.mem_map.mpr ⟨b.toNat, List.mem_range.mpr b.isLt, by simp⟩

theorem allBytes_nodup : allBytes.Nodup := by
  refine List.Nodup.map_on (fun m hm n hn h => ?_) List.nodup_range
  have hmod : m % 256 = n % 256 := congrArg BitVec.toNat h
  rwa [Nat.mod_eq_of_lt (List.mem_range.mp hm), Nat.mod_eq_of_lt (List.mem_range.mp hn)] at hmod

/-- Legal parameters make three bytes special, because they are pairwise distinct (R2). -/
theorem countP_isSpecial_allBytes {p : Params} (h : p.Wf) : allBytes.countP (isSpecial p) = 3 := by
  obtain ⟨hstartStop, hstartEsc, hstopEsc, -⟩ := h
  have hnodup : [p.start, p.stop, p.esc].Nodup := by simp [hstartStop, hstartEsc, hstopEsc]
  have hperm : (allBytes.filter (isSpecial p)).Perm [p.start, p.stop, p.esc] :=
    (List.perm_ext_iff_of_nodup (allBytes_nodup.filter _) hnodup).mpr fun b => by
      simp [List.mem_filter, mem_allBytes, isSpecial_iff]
  rw [List.countP_eq_length_filter, hperm.length_eq]
  rfl

/-- All but the three special bytes of the 256 escape to themselves (R34). -/
theorem countP_escape_self_allBytes {p : Params} (h : p.Wf) : allBytes.countP (fun b => escape p b == [b]) = 253 := by
  have hsplit := allBytes.length_eq_countP_add_countP (isSpecial p)
  rw [allBytes_length, countP_isSpecial_allBytes h] at hsplit
  simp only [escape_beq_self]
  simp only [Bool.not_eq_true, Bool.decide_eq_false] at hsplit
  omega

/-! ### The commands -/

theorem exec_escape_singleton (b : Byte) (s : State) :
    exec (.escape [b]) s = .next (s.answered s.rb s.status .ok (escape s.params b)) := by
  rw [exec_escape, execEscape, guardLen_legal rfl, escapeAll_singleton]
  rfl

theorem exec_unescape_of_length_le {w : List Byte} (hw : w.length ≤ 2) (s : State) :
    exec (.unescape w) s = .next (s.answered s.rb s.status
      (unescape s.params w).response.code (unescape s.params w).response.data) := by
  rw [exec_unescape, execUnescape, guardLen_legal (i := .unescape w) (decide_eq_true hw)]
  rfl

/-- A short operand leaves the high byte of LEN zero (R29). -/
theorem encode_of_length_lt {i : Instr} (h : i.operand.length < 256) :
    encode i = [i.opcode, 0x00, BitVec.ofNat 8 i.operand.length] ++ i.operand := by
  simp [encode, lenBytes, Nat.div_eq_of_lt h]

/-- Settles O11: by the operand's length, and by counting the special bytes. -/
theorem escapeResult : Obligations.EscapeResult := by
  refine ⟨fun s operand => ?_, fun b => encode_of_length_lt (by simp [Instr.operand]), fun p hp => ?_⟩
  · match operand with
    | [b] => rw [exec_escape_singleton, escape_eq_ite]
    | [] => exact exec_of_illegal rfl s
    | _ :: _ :: _ => exact exec_of_illegal (by simp [legalLen]) s
  · have hcount := countP_escape_self_allBytes hp
    rwa [allBytes, List.countP_map] at hcount

/-- Settles O12: by the operand's length, and by whether its first byte is ESC. -/
theorem unescapeResult : Obligations.UnescapeResult := by
  refine ⟨fun s w => ?_, fun w hw => encode_of_length_lt (by simp [Instr.operand]; omega)⟩
  match w with
  | [] => rw [exec_unescape_of_length_le (by simp)]; rfl
  | [c] =>
    rw [exec_unescape_of_length_le (by simp)]
    simp only [unescape]
    split_ifs <;> rfl
  | [c, b] =>
    rw [exec_unescape_of_length_le (by simp)]
    simp only [unescape]
    split_ifs <;> rfl
  | _ :: _ :: _ :: _ => exact exec_of_illegal (by simp [legalLen]) s

end Sys2Proof.Machine
end

section
/-!
SUPPORT. The check unit's parity variant (spec/41_parity.md R37 to R39): the bytewise count of 1 bits is the count over all
bits, a parity byte is 0x00 or 0x01, and what the two commands answer to an operand of legal length.
-/

namespace Sys2Proof.Machine

/-! ### The parity byte -/

theorem bitsOf_eq_map_reverse_range (b : Byte) : bitsOf b = (List.range 8).reverse.map b.getLsbD := rfl

/-- The order in which a byte's bits are read does not change how many of them are 1. -/
theorem count_true_bitsOf (b : Byte) : (bitsOf b).count true = popcount b := by
  rw [bitsOf_eq_map_reverse_range, List.count, List.countP_map, List.countP_reverse]
  simp [popcount, Function.comp_def]

/-- Counting the 1 bits byte by byte counts them all. -/
theorem onesCount_eq_count_true (s : List Byte) : onesCount s = (s.flatMap bitsOf).count true := by
  induction s with
  | nil => rfl
  | cons b s ih =>
    calc onesCount (b :: s)
        = popcount b + onesCount s := by simp [onesCount]
      _ = ((b :: s).flatMap bitsOf).count true := by
        rw [List.flatMap_cons, List.count_append, count_true_bitsOf, ih]

theorem par_toNat (s : List Byte) : (par s).toNat = onesCount s % 2 := by
  rw [par, BitVec.toNat_ofNat]
  omega

/-- A parity byte has its upper seven bits clear (R37). -/
theorem par_eq_zero_or_one (s : List Byte) : par s = 0x00 ∨ par s = 0x01 := by
  rcases Nat.mod_two_eq_zero_or_one (onesCount s) with h | h <;> simp [par, h]

theorem boolByte_parVerify (w : List Byte) (r : Byte) :
    boolByte (parVerify w r) = if par w = r then 0x01 else 0x00 := by
  simp [boolByte, parVerify]

/-- Settles O14: the count over all bits is the sum of the bytes' counts, by induction on the sequence. -/
theorem parityCountsOnes : Obligations.ParityCountsOnes := by
  intro s
  rw [par_toNat, onesCount_eq_count_true]

/-! ### The commands -/

theorem exec_parCompute_of_length_le {w : List Byte} (hw : w.length ≤ 8) (s : State) :
    exec (.parCompute w) s = .next (s.answered s.rb s.status .ok [par w]) := by
  rw [exec_parCompute, execParCompute, guardLen_legal (i := .parCompute w) (decide_eq_true hw)]
  rfl

theorem exec_parVerify_of_length_le {w : List Byte} (hw : w.length ≤ 8) (r : Byte) (s : State) :
    exec (.parVerify (w ++ [r])) s = .next (s.answered s.rb s.status .ok [boolByte (parVerify w r)]) := by
  have hl : legalLen (.parVerify (w ++ [r])) = true := by
    simp [legalLen, Config.subframeMax, Nat.lt_succ_of_le hw]
  rw [exec_parVerify, execParVerify, guardLen_legal hl, splitCheck_append]
  rfl

/-- Settles O15: by whether the operand is a sub-frame of at most 8 bytes. -/
theorem parComputeResult : Obligations.ParComputeResult := by
  refine ⟨fun s w => ?_, fun w hw => encode_of_length_lt (by simp [Instr.operand]; omega), par_nil, ?_⟩
  · split_ifs with hw
    · exact exec_parCompute_of_length_le hw s
    · exact exec_of_illegal (i := .parCompute w) (decide_eq_false hw) s
  · decide

/-- Settles O16: a legal operand is a sub-frame and one byte, which is compared with a parity that is 0x00 or 0x01. -/
theorem parVerifyResult : Obligations.ParVerifyResult := by
  refine ⟨fun s w r hw => ?_, fun s o ho => exec_of_illegal (i := .parVerify o) (decide_eq_false ?_) s, fun w r hw => ?_,
    fun w r h0 h1 => ?_⟩
  · rw [exec_parVerify_of_length_le hw, boolByte_parVerify]
  · simp only [Config.subframeMax]
    omega
  · have hlt : (Instr.parVerify (w ++ [r])).operand.length < 256 := by simp [Instr.operand]; omega
    simpa [Instr.operand, Instr.opcode] using encode_of_length_lt hlt
  · rcases par_eq_zero_or_one w with h | h
    · exact h ▸ h0.symm
    · exact h ▸ h1.symm

end Sys2Proof.Machine
end

section
/-!
SUPPORT. The check unit's CRC8 variant (spec/42_crc8.md R41 to R44): one clock in exact arithmetic, the CRC on the 8 bits
of state between clocks, the bytes whose clocks never feed back, and what the two commands answer to an operand of legal
length.
-/

namespace Sys2Proof.Machine

/-! ### One clock -/

/-- Shifting a bit into a byte loses nothing, because the accumulator is one bit wider than the byte (R41). -/
theorem shiftLeft_or_ofBool_eq_concat (a : Byte) (bit : Bool) :
    a.setWidth 9 <<< 1 ||| (BitVec.ofBool bit).setWidth 9 = a.concat bit := by
  apply BitVec.eq_of_getLsbD_eq
  intro i hi
  cases i with
  | zero => simp
  | succ i =>
    have h8 : i < 8 := by omega
    simp [hi, h8]

theorem toNat_concat_eq (a : Byte) (bit : Bool) : (a.concat bit).toNat = 2 * a.toNat + bit.toNat := by
  rw [BitVec.toNat_concat, Nat.mul_comm]

/-- Bit 8 of the accumulator says whether the exact value needs more than 8 bits. -/
theorem getLsbD_eight_iff (t : BitVec 9) : t.getLsbD 8 = true ↔ 256 ≤ t.toNat := by
  rw [← BitVec.msb_eq_getLsbD_last, BitVec.msb_eq_decide, decide_eq_true_iff]

theorem toNat_lfsrClock (a : Byte) (bit : Bool) :
    (lfsrClock (a.setWidth 9) bit).toNat = if 256 ≤ 2 * a.toNat + bit.toNat
      then (2 * a.toNat + bit.toNat) ^^^ 0x1D5 else 2 * a.toNat + bit.toNat := by
  simp only [lfsrClock, shiftLeft_or_ofBool_eq_concat, getLsbD_eight_iff, toNat_concat_eq]
  split_ifs
  · rw [BitVec.toNat_xor, toNat_concat_eq, BitVec.toNat_ofNat]
  · exact toNat_concat_eq a bit

/-- The accumulator after a clock is the 8 bits of state, bit 8 being clear (R41). -/
theorem lfsrClock_eq_crcStep (a : Byte) (bit : Bool) :
    lfsrClock (a.setWidth 9) bit = (crcStep a bit).setWidth 9 := by
  have h8 : (lfsrClock (a.setWidth 9) bit).toNat < 256 :=
    Nat.lt_of_not_le (mt (getLsbD_eight_iff _).mpr (Bool.eq_false_iff.mp (lfsrClock_bit8 _ _)))
  exact (BitVec.setWidth_setWidth_eq_self h8).symm

theorem toNat_crcStep (a : Byte) (bit : Bool) :
    (crcStep a bit).toNat = if 256 ≤ 2 * a.toNat + bit.toNat
      then (2 * a.toNat + bit.toNat) ^^^ 0x1D5 else 2 * a.toNat + bit.toNat := by
  rw [← toNat_lfsrClock, lfsrClock_eq_crcStep, BitVec.toNat_setWidth_of_le (by decide)]

/-- Settles O18: bit 8 before the XOR says whether the exact value is 256 or more, and bit 8 after it is clear. -/
theorem lfsrClockStep : Obligations.LfsrClockStep :=
  fun a bit => ⟨toNat_crcStep a bit, lfsrClock_eq_crcStep a bit⟩

/-! ### The CRC -/

/-- Between clocks the 8 bits of state are all the accumulator holds, so the CRC is clocked on them (R42). -/
theorem foldl_lfsrClock_setWidth (bits : List Bool) (a : Byte) :
    bits.foldl lfsrClock (a.setWidth 9) = (bits.foldl crcStep a).setWidth 9 :=
  List.foldl_hom (BitVec.setWidth 9) lfsrClock_eq_crcStep

theorem crc_append (s t : List Byte) : crc (s ++ t) = (t.flatMap bitsOf).foldl crcStep (crc s) := by
  rw [crc, crcAcc_append, crcAcc_eq s, foldl_lfsrClock_setWidth, BitVec.setWidth_setWidth_of_le _ (by decide),
    BitVec.setWidth_eq]

theorem crc_append_singleton (s : List Byte) (b : Byte) :
    crc (s ++ [b]) = [7, 6, 5, 4, 3, 2, 1, 0].foldl (fun acc k => crcStep acc (b.getLsbD k)) (crc s) := by
  rw [crc_append, List.flatMap_singleton, bitsOf, List.foldl_map]

/-- A zero accumulator stays zero while zero bits are clocked in. -/
theorem crc_replicate_zero (n : Nat) : crc (List.replicate n 0x00) = 0x00 := by
  induction n with
  | zero => rfl
  | succ n ih =>
    rw [List.replicate_succ', crc_append_singleton, ih]
    decide

/-- Clocking in the next lower bit of a byte that is being shifted in does not feed back (R45 law 2). -/
theorem crcStep_ushiftRight (b : Byte) (k : Nat) : crcStep (b >>> (k + 1)) (b.getLsbD k) = b >>> k := by
  have hval : 2 * (b >>> (k + 1)).toNat + (b.getLsbD k).toNat = (b >>> k).toNat := by
    rw [← BitVec.testBit_toNat, Nat.toNat_testBit, ← Nat.shiftRight_eq_div_pow, BitVec.toNat_ushiftRight,
      BitVec.toNat_ushiftRight, Nat.shiftRight_succ, Nat.div_add_mod]
  apply BitVec.eq_of_toNat_eq
  rw [toNat_crcStep, hval, if_neg (Nat.not_le_of_lt (b >>> k).isLt)]

/-- The CRC of one byte is the byte: its eight clocks only shift it in (R43, R45 law 2). -/
theorem crc_singleton (b : Byte) : crc [b] = b := by
  have hstart : crc [] = b >>> 8 := (BitVec.ushiftRight_eq_zero (by decide)).symm
  rw [← List.nil_append [b], crc_append_singleton, hstart]
  simp only [List.foldl_cons, List.foldl_nil, crcStep_ushiftRight, BitVec.ushiftRight_zero]

/-- Settles O19: the accumulator over a concatenation, on the 8 bits of state between clocks. -/
theorem crcClocksEveryBit : Obligations.CrcClocksEveryBit :=
  ⟨crc_nil, crc_append_singleton, crc_replicate_zero 8⟩

/-! ### The commands -/

theorem boolByte_crcVerify (w : List Byte) (r : Byte) :
    boolByte (crcVerify w r) = if crc w = r then 0x01 else 0x00 := by
  simp [boolByte, crcVerify]

theorem exec_crcCompute_of_length_le {w : List Byte} (hw : w.length ≤ 8) (s : State) :
    exec (.crcCompute w) s = .next ((s.answered s.rb s.status .ok [crc w]).withTransient
      { s.transient with acc := crcAcc w }) := by
  rw [exec_crcCompute, execCrcCompute, guardLen_legal (i := .crcCompute w) (decide_eq_true hw)]
  rfl

theorem exec_crcVerify_of_length_le {w : List Byte} (hw : w.length ≤ 8) (r : Byte) (s : State) :
    exec (.crcVerify (w ++ [r])) s = .next ((s.answered s.rb s.status .ok
      [if crc w = r then 0x01 else 0x00]).withTransient { s.transient with acc := crcAcc w }) := by
  have hl : legalLen (.crcVerify (w ++ [r])) = true := by
    simp [legalLen, Config.subframeMax, Nat.lt_succ_of_le hw]
  rw [exec_crcVerify, execCrcVerify, guardLen_legal hl, splitCheck_append, ← boolByte_crcVerify]
  rfl

/-- Settles O20: by whether the operand is a sub-frame of at most 8 bytes. -/
theorem crcComputeResult : Obligations.CrcComputeResult := by
  refine ⟨fun s w hw => ⟨_, exec_crcCompute_of_length_le hw s⟩,
    fun s w hw => exec_of_illegal (i := .crcCompute w) (decide_eq_false (Nat.not_le_of_lt hw)) s,
    fun w hw => encode_of_length_lt (by simp [Instr.operand]; omega), crc_replicate_zero, crc_singleton, ?_, ?_⟩
  · simp [crc, crcAcc, List.replicate, bitsOf, lfsrClock, Config.gen]
  · simp [crc, crcAcc, bitsOf, lfsrClock, Config.gen]

/-- Settles O21: a legal operand is a sub-frame and one byte, which is compared with the CRC of the sub-frame alone. -/
theorem crcVerifyResult : Obligations.CrcVerifyResult := by
  refine ⟨fun s w r hw => ⟨_, exec_crcVerify_of_length_le hw r s⟩,
    fun s o ho => exec_of_illegal (i := .crcVerify o) (decide_eq_false ?_) s, fun w r hw => ?_, fun b r => ?_⟩
  · simp only [Config.subframeMax]
    omega
  · have hlt : (Instr.crcVerify (w ++ [r])).operand.length < 256 := by simp [Instr.operand]; omega
    simpa [Instr.operand, Instr.opcode] using encode_of_length_lt hlt
  · rw [crc_singleton, eq_comm]

end Sys2Proof.Machine
end

section
/-!
SUPPORT. The check that MODE selects and the framer (spec/43_framer.md R46, R47): what FRAME answers to a payload of legal
length, with its frames written out.
-/

namespace Sys2Proof.Machine

/-! ### Check-unit selection -/

theorem verify_iff (m : Mode) (w : List Byte) (r : Byte) : verify m w r = true ↔ check m w = r := by
  rw [verify_eq, beq_iff_eq]

/-- Settles O26: each mode is its own check, and VERIFY compares whole bytes in both. -/
theorem modeSelectsCheck : Obligations.ModeSelectsCheck :=
  fun s r => ⟨rfl, rfl, fun m => verify_iff m s r⟩

/-! ### FRAME -/

/-- The frames of a payload, one for each index of a sub-frame (R47). -/
theorem frame_eq_flatMap_range (p : Params) (m : Mode) (payload : List Byte) :
    frame p m payload = (List.range (subframeCount payload.length)).flatMap fun j =>
      wireFrame p ((payload.drop (8 * j)).take 8) (check m ((payload.drop (8 * j)).take 8)) := by
  rw [frame, subframes, List.flatMap_map]

theorem frame_short {w : List Byte} (h : w.length ≤ 8) (p : Params) (m : Mode) :
    frame p m w = wireFrame p w (check m w) := by
  rw [frame, subframes_short h, List.flatMap_singleton]

/-- An empty payload is one empty sub-frame, so one frame of the check byte alone (R47). -/
theorem frame_nil (p : Params) (m : Mode) : frame p m [] = wireFrame p [] 0x00 := by
  rw [frame_short (w := []) (Nat.zero_le 8), check_nil]

theorem exec_frame_of_length_le {payload : List Byte} (h : payload.length ≤ 26208) (s : State) :
    exec (.frame payload) s = .next ((s.answered s.rb s.status .ok (frame s.params s.mode payload)).withTransient
      (s.frameTransients payload).transient) := by
  rw [exec_frame, execFrame, guardLen_legal (i := .frame payload) (decide_eq_true h)]
  rfl

/-- Settles O27: by whether the payload is one of at most FRAME_PAYLOAD_MAX bytes. -/
theorem frameResult : Obligations.FrameResult := by
  refine ⟨fun s payload h => ⟨(s.frameTransients payload).transient, ?_⟩,
    fun s payload h => exec_of_illegal (i := .frame payload) (decide_eq_false (Nat.not_le_of_lt h)) s,
    frame_nil, fun _ _ => rfl⟩
  rw [exec_frame_of_length_le h, frame_eq_flatMap_range]
  rfl

end Sys2Proof.Machine
end

section
/-!
SUPPORT. DEFRAME (spec/44_deframer.md R51 to R58): where the scan ends on garbage, a START, wire units and what follows
them, and what the command answers for each end of its scan.
-/

namespace Sys2Proof.Machine

/-! ### Where the scan ends -/

/-- Dropping a frame's START, its units and one more byte leaves what follows that byte. -/
theorem dropFront_units_succ (p : Params) (us : List WireUnit) (c : Byte) (rest : List Byte) :
    Memory.dropFront (p.start :: (unitBytes p us ++ c :: rest)) (1 + (unitBytes p us).length + 1) = rest :=
  calc _ = (Memory.dropFront (p.start :: (unitBytes p us ++ c :: rest)) (1 + (unitBytes p us).length)).tail :=
        List.tail_drop.symm
    _ = rest := by rw [dropFront_units, List.tail_cons]

theorem deframeScan_atStart (p : Params) (rest : List Byte) :
    deframeScan p (p.start :: rest) = inFrame p (p.start :: rest) 1 [] rest :=
  deframeScan_garbage (g := []) (by simp) rest

section
variable {p : Params} {g : List Byte} {us : List WireUnit} (hg : ∀ b ∈ g, b ≠ p.start) (hus : ∀ u ∈ us, u.ok p)
include hg hus

/-- R52: the scan of an open frame ends with RB, and RB keeps the frame. -/
theorem deframeScan_openFrame (hl : us.length ≤ 9) :
    deframeScan p (g ++ p.start :: unitBytes p us) =
      ⟨.endOfBuffer, p.start :: unitBytes p us, .inFrame, 1 + (unitBytes p us).length, literals us⟩ := by
  simpa using deframeScan_units hg hus hl []

/-- R53: a trailing ESC ends the scan like the end of RB, and stays with the frame. -/
theorem deframeScan_trailingEsc (hl : us.length ≤ 9) :
    deframeScan p (g ++ p.start :: (unitBytes p us ++ [p.esc])) =
      ⟨.endOfBuffer, p.start :: (unitBytes p us ++ [p.esc]), .inFrame, 1 + (unitBytes p us).length, literals us⟩ := by
  rw [deframeScan_units hg hus hl, inFrame_loneEsc]

/-- R54: a STOP ends the scan, and the frame with its STOP leaves RB. -/
theorem deframeScan_stop (hl : us.length ≤ 9) (hp : p.Wf) (rest : List Byte) :
    deframeScan p (g ++ p.start :: (unitBytes p us ++ p.stop :: rest)) =
      ⟨.stopDelimiter, rest, .inFrame, 1 + (unitBytes p us).length, literals us⟩ := by
  rw [deframeScan_units hg hus hl, inFrame_stop hp, dropFront_units_succ]

/-- R55: at a START inside the frame the scan begins again there. -/
theorem deframeScan_startInside (hl : us.length ≤ 9) (hp : p.Wf) (rest : List Byte) :
    deframeScan p (g ++ p.start :: (unitBytes p us ++ p.start :: rest)) = deframeScan p (p.start :: rest) := by
  rw [deframeScan_units hg hus hl, inFrame_start hp, dropFront_units, deframeScan_atStart]

/-- R56: the tenth unit ends the scan, and RB keeps what follows it. -/
theorem deframeScan_tenthUnit (hl : us.length = 10) (rest : List Byte) :
    deframeScan p (g ++ p.start :: (unitBytes p us ++ rest)) =
      ⟨.tenthLiteral, rest, .inFrame, 1 + (unitBytes p us).length, literals us⟩ := by
  obtain rfl | ⟨nine, u, rfl⟩ := List.eq_nil_or_concat' us
  · simp at hl
  · have hnine : nine.length = 9 := by simpa using hl
    have hlast : unitBytes p (nine ++ [u]) ++ rest = unitBytes p nine ++ (u.bytes p ++ rest) := by simp [unitBytes]
    have hcursor : 1 + (unitBytes p nine).length + (u.bytes p).length = 1 + (unitBytes p (nine ++ [u])).length := by
      simp [unitBytes]; omega
    rw [hlast, deframeScan_units hg (fun v hv => hus v (by simp [hv])) hnine.le, inFrame_unit _ _ _ (hus u (by simp)),
      if_neg (by simp [hnine]), hcursor, ← hlast, dropFront_units, literals_append]
    rfl

end

/-! ### What the command answers -/

theorem exec_deframe_nil (s : State) : exec (.deframe []) s = .next s.deframe := by
  rw [exec_deframe, execDeframe, guardLen_legal rfl]

/-- Two receive buffers with the same scan give the same next state. -/
theorem exec_deframe_of_scan_eq {s : State} {rb : Memory} (h : deframeScan s.params s.rb = deframeScan s.params rb) :
    ∃ t tr, exec (.deframe []) { s with rb := rb } = .next t ∧ exec (.deframe []) s = .next (t.withTransient tr) :=
  ⟨State.deframe { s with rb := rb }, _, exec_deframe_nil _, by
    rw [exec_deframe_nil, s.deframe_congr h, State.withTransient_self]⟩

section
variable {s : State} {e : ScanEnd} (he : deframeScan s.params s.rb = e)
include he

/-- R51, R52, R53: without a START, or with an open frame, DEFRAME answers INCOMPLETE. -/
theorem exec_deframe_of_incomplete (hev : e.event = .noStart ∨ e.event = .endOfBuffer) :
    ∃ tr, exec (.deframe []) s =
      .next ((s.answered e.rb ⟨some .incomplete, none⟩ .incomplete []).withTransient tr) := by
  refine ⟨(s.afterScan e).transient, ?_⟩
  rw [exec_deframe_nil, State.deframe, he]
  rcases hev with hev | hev <;> simp only [hev] <;> rfl

/-- R56: the tenth literal is CORRUPT OVERSIZE. -/
theorem exec_deframe_of_tenthLiteral (hev : e.event = .tenthLiteral) :
    ∃ tr, exec (.deframe []) s =
      .next ((s.answered e.rb ⟨some .corrupt, some .oversize⟩ .corrupt []).withTransient tr) := by
  refine ⟨(s.afterScan e).transient, ?_⟩
  rw [exec_deframe_nil, State.deframe, he]
  simp only [hev]
  rfl

theorem exec_deframe_of_stop (hev : e.event = .stopDelimiter) :
    exec (.deframe []) s = .next ((s.afterScan e).judge e.lits) := by
  rw [exec_deframe_nil, State.deframe, he]
  simp only [hev]

/-- R54: a STOP without a literal before it is CORRUPT MALFORMED. -/
theorem exec_deframe_of_stop_nil (hev : e.event = .stopDelimiter) (hlits : e.lits = []) :
    ∃ tr, exec (.deframe []) s =
      .next ((s.answered e.rb ⟨some .corrupt, some .malformed⟩ .corrupt []).withTransient tr) := by
  refine ⟨(s.afterScan e).transient, ?_⟩
  rw [exec_deframe_of_stop he hev, hlits]
  rfl

/-- R57: at a STOP the last literal is compared with the CHECK of those before it. -/
theorem exec_deframe_of_stop_concat (hev : e.event = .stopDelimiter) {d : List Byte} {r : Byte}
    (hlits : e.lits = d ++ [r]) :
    ∃ tr, exec (.deframe []) s = .next ((if check s.mode d = r then s.answered e.rb ⟨some .done, none⟩ .done d
      else s.answered e.rb ⟨some .corrupt, some .checksum⟩ .corrupt []).withTransient tr) := by
  refine ⟨((s.afterScan e).checkAcc d).transient, ?_⟩
  rw [exec_deframe_of_stop he hev, hlits, State.judge, splitCheck_append]
  simp only [verify_iff, State.afterScan_mode]
  split_ifs <;> rfl

end

section
variable {s : State} {g rest : List Byte} {us : List WireUnit} (hp : s.params.Wf) (hg : ∀ b ∈ g, b ≠ s.params.start)
  (hus : ∀ u ∈ us, u.ok s.params) (hl : us.length ≤ 9)
  (hrb : s.rb = g ++ s.params.start :: (unitBytes s.params us ++ s.params.stop :: rest))
include hp hg hus hl hrb

/-- R54: DEFRAME of a frame without a literal. -/
theorem exec_deframe_frame_nil (hlits : literals us = []) :
    ∃ tr, exec (.deframe []) s =
      .next ((s.answered rest ⟨some .corrupt, some .malformed⟩ .corrupt []).withTransient tr) :=
  exec_deframe_of_stop_nil (hrb ▸ deframeScan_stop hg hus hl hp rest) rfl hlits

/-- R54, R57: DEFRAME of a frame whose literals are data bytes and a check byte. -/
theorem exec_deframe_frame_concat {d : List Byte} {r : Byte} (hlits : literals us = d ++ [r]) :
    ∃ tr, exec (.deframe []) s = .next ((if check s.mode d = r then s.answered rest ⟨some .done, none⟩ .done d
      else s.answered rest ⟨some .corrupt, some .checksum⟩ .corrupt []).withTransient tr) :=
  exec_deframe_of_stop_concat (hrb ▸ deframeScan_stop hg hus hl hp rest) rfl hlits

end

/-- R53: what DEFRAME answers to a frame is settled by the frame's literals, however each is escaped. -/
theorem exec_deframe_frame_of_literals {s : State} (hp : s.params.Wf) {l : List Byte} (hl : l.length ≤ 9)
    (rest : List Byte) :
    ∃ t c d, ∀ us : List WireUnit, (∀ u ∈ us, u.ok s.params) → literals us = l →
      ∃ tr, exec (.deframe []) { s with rb := s.params.start :: (unitBytes s.params us ++ s.params.stop :: rest) } =
        .next ((s.answered rest t c d).withTransient tr) := by
  have hlen {us : List WireUnit} (h : literals us = l) : us.length ≤ 9 := by rwa [← literals_length, h]
  rcases List.eq_nil_or_concat' l with rfl | ⟨d, r, rfl⟩
  · exact ⟨⟨some .corrupt, some .malformed⟩, .corrupt, [], fun us hus hlits =>
      exec_deframe_frame_nil (g := []) hp (by simp) hus (hlen hlits) rfl hlits⟩
  · have hframe (us : List WireUnit) (hus : ∀ u ∈ us, u.ok s.params) (hlits : literals us = d ++ [r]) :=
      exec_deframe_frame_concat (g := [])
        (s := { s with rb := s.params.start :: (unitBytes s.params us ++ s.params.stop :: rest) })
        hp (by simp) hus (hlen hlits) rfl hlits
    by_cases hc : check s.mode d = r
    · simp only [hc, if_true] at hframe
      exact ⟨_, _, _, hframe⟩
    · simp only [hc, if_false] at hframe
      exact ⟨_, _, _, hframe⟩

/-! ### The obligations -/

/-- Settles O30: SEEK_START finds no START, or its scan is that of RB from the first START on. -/
theorem seekStartDropsGarbage : Obligations.SeekStartDropsGarbage := by
  refine ⟨fun s hs => exec_deframe_of_incomplete (deframeScan_none (seekStart_none hs)) (.inl rfl),
    fun s g rest hg hrb => exec_deframe_of_scan_eq ?_⟩
  rw [hrb, deframeScan_garbage hg, deframeScan_atStart]

/-- Settles O31: the scan reads every unit and then finds the end of RB. -/
theorem openFrameIsIncomplete : Obligations.OpenFrameIsIncomplete := by
  intro s g us _ hg hus hl hrb
  exact exec_deframe_of_incomplete (hrb ▸ deframeScan_openFrame hg hus hl) (.inr rfl)

/-- Settles O32: the answer at STOP depends on the literals alone, and a trailing ESC ends the scan like the end of
RB. -/
theorem escapeUnitIsOneLiteral : Obligations.EscapeUnitIsOneLiteral := by
  refine ⟨fun s us vs rest hp hus hvs heq hl => ?_, fun s g us _ hg hus hl hrb =>
    exec_deframe_of_incomplete (hrb ▸ deframeScan_trailingEsc hg hus hl) (.inr rfl)⟩
  obtain ⟨t, c, d, hframe⟩ := exec_deframe_frame_of_literals hp (l := literals vs)
    (by rwa [← heq, literals_length]) rest
  obtain ⟨tr, hu⟩ := hframe us hus heq
  obtain ⟨tr', hv⟩ := hframe vs hvs rfl
  exact ⟨rest, t, c, d, tr, tr', hu, hv⟩

/-- Settles O33: by the scan to STOP, with no unit, and with the literals of `ds` and of `r`. -/
theorem stopEndsFrame : Obligations.StopEndsFrame := by
  intro s g rest hp hg
  refine ⟨fun hrb => exec_deframe_frame_nil (us := []) hp hg (by simp) (by simp) hrb rfl, fun ds r hds hr hl hrb => ?_⟩
  have hok : ∀ u ∈ ds ++ [r], u.ok s.params := by
    simpa [or_imp, forall_and] using And.intro hds hr
  exact exec_deframe_frame_concat hp hg hok (by simp; omega) hrb (by rw [literals_append]; rfl)

/-- Settles O34: the scan begins again at the second START. -/
theorem startInsideFrameResynchronises : Obligations.StartInsideFrameResynchronises := by
  intro s g rest us hp hg hus hl hrb
  exact exec_deframe_of_scan_eq (hrb ▸ deframeScan_startInside hg hus hl hp rest)

/-- Settles O35: the scan ends at the tenth unit. -/
theorem tenthLiteralIsOversize : Obligations.TenthLiteralIsOversize := by
  intro s g rest us _ hg hus hl hrb
  exact exec_deframe_of_tenthLiteral (hrb ▸ deframeScan_tenthUnit hg hus hl rest) rfl

/-- Settles O36: by what ended the scan, and at a STOP by the literals, at most 9. -/
theorem deframeFinishesOnce : Obligations.DeframeFinishesOnce := by
  refine ⟨fun s => ?_, fun s o ho => exec_of_illegal (by simpa [legalLen] using ho) s⟩
  cases hev : (deframeScan s.params s.rb).event with
  | noStart =>
    obtain ⟨tr, h⟩ := exec_deframe_of_incomplete rfl (.inl hev)
    exact ⟨_, _, _, _, tr, h, .inr (.inl ⟨rfl, rfl, rfl, rfl, rfl⟩)⟩
  | endOfBuffer =>
    obtain ⟨tr, h⟩ := exec_deframe_of_incomplete rfl (.inr hev)
    exact ⟨_, _, _, _, tr, h, .inr (.inl ⟨rfl, rfl, rfl, rfl, rfl⟩)⟩
  | tenthLiteral =>
    obtain ⟨tr, h⟩ := exec_deframe_of_tenthLiteral rfl hev
    exact ⟨_, _, _, _, tr, h, .inr (.inr (.inr (.inr ⟨rfl, rfl, rfl, rfl, rfl⟩)))⟩
  | stopDelimiter =>
    rcases List.eq_nil_or_concat' (deframeScan s.params s.rb).lits with hnil | ⟨d, r, hconcat⟩
    · obtain ⟨tr, h⟩ := exec_deframe_of_stop_nil rfl hev hnil
      exact ⟨_, _, _, _, tr, h, .inr (.inr (.inl ⟨rfl, rfl, rfl, rfl, rfl⟩))⟩
    · have hlits := deframeScan_stop_lits hev
      have hd : d.length ≤ 8 := by simpa [hconcat, Nat.lt_succ_iff] using hlits
      obtain ⟨tr, h⟩ := exec_deframe_of_stop_concat rfl hev hconcat
      split_ifs at h
      · exact ⟨_, _, _, _, tr, h, .inl ⟨rfl, rfl, rfl, rfl, hd⟩⟩
      · exact ⟨_, _, _, _, tr, h, .inr (.inr (.inr (.inl ⟨rfl, rfl, rfl, rfl, rfl⟩)))⟩

end Sys2Proof.Machine
end

section
/-!
SUPPORT. The host interface (spec/45_host_interface.md R60 to R62): what RB_APPEND answers with and without room for its
bytes, and what the two reads answer.
-/

namespace Sys2Proof.Machine

/-! ### RB_APPEND -/

/-- RB_APPEND with its legal length, by whether RB has room for all of its bytes (R60). -/
theorem exec_rbAppend_of_length_le {o : List Byte} (ho : o.length ≤ 65535) (s : State) :
    exec (.rbAppend o) s = .next (if s.rb.fits s.params.rbCap o.length then s.answered (s.rb.append o) s.status .ok []
      else s.answered s.rb s.status .overflow []) := by
  rw [exec_rbAppend, execRbAppend, guardLen_legal (i := .rbAppend o) (decide_eq_true ho)]
  rfl

/-- Settles O42: by whether the bytes fit, and by reading at the two sides of the old end of RB. -/
theorem rbAppendResult : Obligations.RbAppendResult := by
  refine ⟨fun s o ho => ⟨fun ⟨c, hc, hlt⟩ => ?_, fun hroom => ?_, fun a ha => Memory.read_append_old ha,
    fun a _ => Memory.read_append_new s.rb o a⟩, fun o _ => rfl⟩
  · have hfull : ¬ s.rb.fits s.params.rbCap o.length = true := fun hfits =>
      absurd ((Memory.fits_iff ..).mp hfits c hc) (Nat.not_le_of_lt hlt)
    rw [exec_rbAppend_of_length_le ho, if_neg hfull]
  · rw [exec_rbAppend_of_length_le ho, if_pos ((Memory.fits_iff ..).mpr hroom)]
    rfl

/-! ### The two reads -/

theorem exec_statusRead_nil (s : State) :
    exec (.statusRead []) s = .next (s.answered s.rb s.status .ok [s.status.word]) := by
  rw [exec_statusRead, execStatusRead, guardLen_legal rfl]
  rfl

theorem exec_cfgRead_nil (s : State) :
    exec (.cfgRead []) s = .next (s.answered s.rb s.status .ok [modeWord s.mode]) := by
  rw [exec_cfgRead, execCfgRead, guardLen_legal rfl]
  rfl

theorem modeWord_eq_ite (m : Mode) : modeWord m = if m = .crc8 then 0x01 else 0x00 := by cases m <;> rfl

/-- Settles O43: the answer is the word of STATUS, which is 0x00 after reset; an operand has no legal length. -/
theorem statusReadResult : Obligations.StatusReadResult := by
  refine ⟨exec_statusRead_nil, fun s o ho => exec_of_illegal (by simpa [legalLen] using ho) s,
    encode_of_length_lt (i := .statusRead []) (by decide), ?_, fun s hs => ?_⟩
  · rw [exec_statusRead_nil, show State.reset.status = Status.atReset from rfl, Status.word_atReset]
    rfl
  · rw [hs]
    decide

/-- Settles O44: the answer is the word of MODE; an operand has no legal length. -/
theorem cfgReadResult : Obligations.CfgReadResult :=
  ⟨fun s => by rw [exec_cfgRead_nil, modeWord_eq_ite],
    fun s o ho => exec_of_illegal (i := .cfgRead o) (by simpa [legalLen] using ho) s,
    encode_of_length_lt (i := .cfgRead []) (by decide)⟩

end Sys2Proof.Machine
end

section
/-!
SUPPORT. What reset leaves (spec/70_reset_and_hazards.md R71), for any parameters and either MODE_IN: at the start of a run,
and for a reset between commands (`step_of_reset` and the field lemmas of `State.resetCore`).
-/

namespace Sys2Proof.Machine

@[simp] theorem State.resetWith_mode (p : Params) (m : Mode) : (State.resetWith p m).mode = m := rfl
@[simp] theorem State.resetWith_status (p : Params) (m : Mode) : (State.resetWith p m).status = Status.atReset := rfl
@[simp] theorem State.resetWith_rb (p : Params) (m : Mode) : (State.resetWith p m).rb = [] := rfl

/-- CFG[7:1] reads 0 in either MODE. -/
theorem modeWord_and_upperBits (m : Mode) : modeWord m &&& 0xFE#8 = 0x00#8 := by cases m <;> rfl

/-- Settles O45: by the fields of the state at the start of a run, the two words of CFG, and what the step that takes a
reset leaves. -/
theorem resetState : Obligations.ResetState := by
  refine ⟨⟨State.resetWith_mode .., State.resetWith_status .., Status.word_atReset, State.resetWith_rb ..⟩,
    modeWord_and_upperBits, fun s m events hp => ⟨_, step_of_reset hp, ?_⟩⟩
  exact ⟨State.resetCore_mode .., State.resetCore_status .., Status.word_atReset, State.resetCore_rb ..,
    State.resetCore_params ..⟩

end Sys2Proof.Machine
end

section
/-!
SUPPORT. The command encoding both ways (spec/30_encoding.md R29, R30, R33): what the decoder reads from a header and its
operand bytes, and that every byte string is such a header or ends inside a command.
-/

namespace Sys2Proof

theorem Instr.wf_iff (i : Instr) : i.wf = true ↔ i.operand.length ≤ 0xFFFF := decide_eq_true_iff

/-- A header and the operand bytes its LEN asks for are read as one command, whatever follows them (R29). -/
theorem decode_header {op hi lo : Byte} {operand : List Byte} (h : operand.length = lenOf hi lo) (rest : List Byte) :
    decode (op :: hi :: lo :: (operand ++ rest)) =
      (instrOf op operand).elim (.reserved op rest) fun i => .instr i rest := by
  have hfits : ¬ (operand ++ rest).length < lenOf hi lo := by simp [← h]
  rw [decode, if_neg hfits, List.take_left' h, List.drop_left' h]
  cases instrOf op operand <;> rfl

/-- Every byte string ends inside a command or begins with a header and the operand bytes its LEN asks for. -/
theorem decode_cases (bytes : List Byte) :
    decode bytes = .truncated ∨
    ∃ op hi lo operand rest, bytes = op :: hi :: lo :: (operand ++ rest) ∧ operand.length = lenOf hi lo := by
  match bytes with
  | [] | [_] | [_, _] => exact .inl rfl
  | op :: hi :: lo :: tail =>
    by_cases h : tail.length < lenOf hi lo
    · exact .inl (by rw [decode, if_pos h])
    · refine .inr ⟨op, hi, lo, tail.take (lenOf hi lo), tail.drop (lenOf hi lo), ?_, ?_⟩
      · rw [List.take_append_drop]
      · rw [List.length_take, Nat.min_eq_left (Nat.le_of_not_lt h)]

/-- Settles O1: LEN holds the operand's length and the opcode names the command, so the decoder reads both back. -/
theorem decodeOfEncode : Obligations.DecodeOfEncode := by
  intro i rest hi
  have hlen := lenOf_of_lenBytes ((Instr.wf_iff i).mp hi)
  simpa [encode, lenBytes, instrOf_opcode] using decode_header (op := i.opcode) hlen.symm rest

/-- Settles O2: the bytes are a header and an operand, and the opcode and LEN of the command are those of the header. -/
theorem encodeOfDecode : Obligations.EncodeOfDecode := by
  intro bytes rest i h
  rcases decode_cases bytes with htrunc | ⟨op, hi, lo, operand, rest', rfl, hlen⟩
  · rw [htrunc] at h
    cases h
  · rw [decode_header hlen] at h
    cases hi' : instrOf op operand with
    | none => simp [hi'] at h
    | some j =>
      obtain ⟨rfl, rfl⟩ : j = i ∧ rest' = rest := by simpa [hi'] using h
      have hoperand := instrOf_operand hi'
      refine ⟨(Instr.wf_iff j).mpr ?_, ?_⟩
      · rw [hoperand, hlen]
        exact lenOf_lt hi lo
      · simp [encode, opcode_of_instrOf hi', hoperand, hlen, lenBytes_of_lenOf]

/-- Settles O3: each string is evaluated by the decoder. -/
theorem specWordsDecode : Obligations.SpecWordsDecode := by
  unfold Obligations.SpecWordsDecode
  decide

end Sys2Proof
end

section
/-!
SUPPORT. What a step does for each thing that stands at the front of the host's list (spec/70_reset_and_hazards.md R73), and
the one case in which it is refused.
-/

namespace Sys2Proof.Machine

theorem step_of_idle {s : State} (h : s.pending = []) : step s = .next s := by
  simp [step, fetch, h]

theorem step_of_blank {s : State} {events : List HostEvent} (h : s.pending = .commands [] :: events) :
    step s = .next { s with pending := events } := by
  simp [step, fetch, h]

section
variable {s : State} {bytes : List Byte} {events : List HostEvent} (h : s.pending = .commands bytes :: events)
include h

theorem step_of_instr {i : Instr} {rest : List Byte} (hd : decode bytes = .instr i rest) :
    step s = exec i { s with pending := pushRest rest events } := by
  cases bytes with
  | nil => cases hd
  | cons b bytes => simp [step, fetch, h, hd]

theorem step_of_reserved {op : Byte} {rest : List Byte} (hd : decode bytes = .reserved op rest) :
    step s = .next (State.reject { s with pending := pushRest rest events } .illegal) := by
  cases bytes with
  | nil => cases hd
  | cons b bytes => simp [step, fetch, h, hd]

theorem step_of_truncated (hne : bytes ≠ []) (hd : decode bytes = .truncated) :
    step s = .refused .truncatedCommand := by
  cases bytes with
  | nil => exact absurd rfl hne
  | cons b bytes => simp [step, fetch, h, hd]

end

/-- Settles O4: the step decodes the stretch of commands and runs what it finds. -/
theorem stepRunsDecodedCommand : Obligations.StepRunsDecodedCommand :=
  fun _ _ _ _ _ hp hd => step_of_instr hp hd

/-- Settles O5: by what stands at the front of the host's list. -/
theorem stepsOfTheHostList : Obligations.StepsOfTheHostList :=
  ⟨fun _ => step_of_idle, fun _ _ => step_of_blank, fun _ _ _ hp =>
    ⟨_, step_of_reset hp, State.resetCore_pending .., State.resetCore_responses ..⟩⟩

/-- Settles O6: by what stands at the front of the host's list, and by what the bytes there decode to. -/
theorem onlyTruncatedCommandsStop : Obligations.OnlyTruncatedCommandsStop := by
  intro s
  match hp : s.pending with
  | [] => exact .inl ⟨by simp, s, step_of_idle hp⟩
  | .reset m :: events => exact .inl ⟨by simp, _, step_of_reset hp⟩
  | .commands [] :: events => exact .inl ⟨by simp, _, step_of_blank hp⟩
  | .commands (b :: bytes) :: events =>
    cases hd : decode (b :: bytes) with
    | truncated => exact .inr ⟨⟨_, _, rfl, by simp, hd⟩, step_of_truncated hp (by simp) hd⟩
    | reserved op rest => exact .inl ⟨by rintro _ _ ⟨⟩ -; simp [hd], _, step_of_reserved hp hd⟩
    | instr i rest =>
      obtain ⟨t, ht⟩ := exec_next i { s with pending := pushRest rest events }
      exact .inl ⟨by rintro _ _ ⟨⟩ -; simp [hd], t, (step_of_instr hp hd).trans ht⟩

end Sys2Proof.Machine
end

section
/-!
SUPPORT. What each command leaves unchanged (spec/10_state.md section 6), and the invariant field by field: RB within its
capacity, STATUS legal, and the transient registers within their ranges after every command, and so after every step.
-/

namespace Sys2Proof.Machine

/-! ### What a command leaves unchanged -/

/-- No command changes the parameters (R2, R8). -/
theorem exec_params {i : Instr} {s t : State} (h : exec i s = .next t) : t.params = s.params := by
  obtain ⟨e, -, he⟩ := exec_effect i s
  cases he.exec_eq.symm.trans h
  rfl

/-- No command touches what the host has still to do. -/
theorem exec_pending {i : Instr} {s t : State} (h : exec i s = .next t) : t.pending = s.pending := by
  obtain ⟨e, -, he⟩ := exec_effect i s
  cases he.exec_eq.symm.trans h
  rfl

/-- A property of the transient registers that a command's run keeps is kept whatever its operand's length. -/
theorem guardLen_transient {P : Transient → Prop} {i : Instr} {s run : State} (hs : P s.transient)
    (hrun : P run.transient) : P (guardLen i s run).transient := by
  rcases guardLen_cases i s run with ⟨-, e⟩ | ⟨-, e⟩
  · rwa [e]
  · rwa [e, State.reject_transient]

/-- Only FRAME, DEFRAME and the CRC commands use a transient register (R16, R17, R18). -/
theorem exec_transient {i : Instr} {s t : State} (hframe : ∀ o, i ≠ .frame o) (hdeframe : ∀ o, i ≠ .deframe o)
    (hcompute : ∀ o, i ≠ .crcCompute o) (hverify : ∀ o, i ≠ .crcVerify o) (h : exec i s = .next t) :
    t.transient = s.transient := by
  cases i with
  | frame o => exact absurd rfl (hframe o)
  | deframe o => exact absurd rfl (hdeframe o)
  | crcCompute o => exact absurd rfl (hcompute o)
  | crcVerify o => exact absurd rfl (hverify o)
  | parVerify o | rbAppend o =>
    cases h; exact guardLen_transient (P := (· = s.transient)) rfl (by split <;> rfl)
  | escape o | unescape o | parCompute o | statusRead o | cfgRead o =>
    cases h; exact guardLen_transient (P := (· = s.transient)) rfl rfl

/-- Settles O46: by the effect of a command on each field. -/
theorem commandFrame : Obligations.CommandFrame := by
  intro i s t h
  refine ⟨exec_mode h, exec_params h, exec_pending h, fun hdeframe => exec_status (hdeframe []) h,
    fun hdeframe happend => ?_, fun hframe hdeframe hcompute hverify =>
    exec_transient hframe hdeframe hcompute hverify h⟩
  have hrb := exec_rb happend hdeframe h
  exact ⟨hrb, fun a => by rw [hrb]⟩

/-- A step leaves the parameters, whatever it takes off the host's list. -/
theorem step_params {s t : State} (h : step s = .next t) : t.params = s.params := by
  rcases step_cases h with ⟨-, rfl⟩ | ⟨events, -, rfl⟩ | ⟨m, events, -, rfl⟩ | ⟨bytes, events, op, rest, -, -, rfl⟩ |
    ⟨bytes, events, i, rest, -, -, hexec⟩
  · rfl
  · rfl
  · rfl
  · rfl
  · exact (exec_params hexec :)

/-- Settles O51: by induction on the number of steps. -/
theorem parametersNeverChange : Obligations.ParametersNeverChange := by
  intro k
  induction k with
  | zero => rintro s t ⟨⟩; rfl
  | succ k ih =>
    intro s t h
    rw [stepMany] at h
    cases hs : step s with
    | next u => exact (ih u t (by rwa [hs] at h)).trans (step_params hs)
    | fault r => nomatch r
    | refused r => simp [hs] at h

/-! ### The transient registers stay within their ranges -/

/-- The ranges of the transient registers: bit 8 of the accumulator clear, at most 8 bytes in the working buffer and at
most 10 literals accumulated (R16, R17, R18). -/
structure Transient.InRange (tr : Transient) : Prop where
  acc : tr.acc.getLsbD 8 = false
  work : tr.work.length ≤ 8
  lits : tr.lits.length ≤ 10

theorem State.Inv.inRange {s : State} (h : s.Inv) : s.transient.InRange := ⟨h.acc, h.work, h.lits⟩

theorem Transient.InRange.setAcc {tr : Transient} (h : tr.InRange) {a : BitVec 9} (ha : a.getLsbD 8 = false) :
    Transient.InRange { tr with acc := a } := ⟨ha, h.work, h.lits⟩

theorem Transient.InRange.setWork {tr : Transient} (h : tr.InRange) {w : List Byte} (hw : w.length ≤ 8) :
    Transient.InRange { tr with work := w } := ⟨h.acc, hw, h.lits⟩

theorem Transient.InRange.setScan {tr : Transient} (h : tr.InRange) {e : ScanEnd} (he : e.lits.length ≤ 10) :
    Transient.InRange { tr with phase := e.phase, cursor := e.cursor, lits := e.lits } := ⟨h.acc, h.work, he⟩

theorem subframes_getLastD_length_le (payload : List Byte) : ((subframes payload).getLastD []).length ≤ 8 := by
  rw [List.getLastD_eq_getLast?]
  cases h : (subframes payload).getLast? with
  | none => simp
  | some w => exact subframes_length_le (List.mem_of_getLast? h)

theorem judge_inRange {s : State} (h : s.transient.InRange) (l : List Byte) : (s.judge l).transient.InRange := by
  have hacc (d : List Byte) : (s.checkAcc d).transient.InRange := h.setAcc (accAfter_bit8 _ h.acc d)
  unfold State.judge
  split
  · exact h
  · split <;> exact hacc _

theorem deframe_inRange {s : State} (h : s.transient.InRange) : s.deframe.transient.InRange := by
  have hscan : (s.afterScan (deframeScan s.params s.rb)).transient.InRange := h.setScan (deframeScan_lits ..)
  rcases s.deframe_cases with ⟨-, e⟩ | ⟨-, e⟩ | ⟨-, e⟩ <;> rw [e]
  · exact hscan
  · exact hscan
  · exact judge_inRange hscan _

/-- Every command leaves the transient registers within their ranges. -/
theorem exec_inRange {i : Instr} {s t : State} (h : s.transient.InRange) (hexec : exec i s = .next t) :
    t.transient.InRange := by
  cases i with
  | frame o =>
    cases hexec
    exact guardLen_transient h
      ((h.setWork (subframes_getLastD_length_le o)).setAcc (accAfter_bit8 _ h.acc _))
  | deframe o => cases hexec; exact guardLen_transient h (deframe_inRange h)
  | crcCompute o => cases hexec; exact guardLen_transient h (h.setAcc (crcAcc_bit8 o))
  | crcVerify o =>
    cases hexec
    refine guardLen_transient h ?_
    split
    · exact h.setAcc (crcAcc_bit8 _)
    · exact h
  | _ => rwa [exec_transient (by simp) (by simp) (by simp) (by simp) hexec]

/-! ### RB stays within its capacity, and STATUS legal -/

/-- RB_APPEND leaves RB within its capacity: it appends only bytes that fit (R60). -/
theorem exec_rbAppend_capacity {o : List Byte} {s t : State} (h : s.rb.wf s.params.rbCap = true)
    (hexec : exec (.rbAppend o) s = .next t) : t.rb.wf s.params.rbCap = true := by
  cases hexec
  by_cases hf : s.rb.fits s.params.rbCap o.length = true
  · rw [if_pos hf]
    rcases guardLen_rb_cases (.rbAppend o) s _ with e | e <;> rw [e]
    · exact h
    · exact Memory.wf_append hf
  · rw [if_neg hf, guardLen_rb (State.reject_rb ..)]
    exact h

/-- Every command leaves RB within its capacity. -/
theorem exec_capacity {i : Instr} {s t : State} (h : s.rb.wf s.params.rbCap = true) (hexec : exec i s = .next t) :
    t.rb.wf s.params.rbCap = true := by
  cases i with
  | rbAppend o => exact exec_rbAppend_capacity h hexec
  | deframe o =>
    obtain e | ⟨n, -, e⟩ := exec_deframe_rb hexec <;> rw [e]
    · exact h
    · exact Memory.wf_dropFront h n
  | _ => rwa [exec_rb (by simp) (by simp) hexec]

/-- DEFRAME gives a REASON exactly with CORRUPT, whatever STATUS was (R58). -/
theorem deframe_status_legal (s : State) : s.deframe.status.legal := by
  obtain ⟨rb, t, c, d, tr, h, hrow⟩ := deframeFinishesOnce.1 s
  rw [Host.Outcome.next.inj ((exec_deframe_nil s).symm.trans h), State.withTransient_status, State.answered_status]
  rcases hrow with ⟨rfl, -⟩ | ⟨rfl, -⟩ | ⟨rfl, -⟩ | ⟨rfl, -⟩ | ⟨rfl, -⟩ <;> simp [Status.legal]

/-- Every command leaves STATUS legal. -/
theorem exec_status_legal {i : Instr} {s t : State} (h : s.status.legal) (hexec : exec i s = .next t) :
    t.status.legal := by
  by_cases hi : i = .deframe []
  · subst hi
    cases hexec
    exact deframe_status_legal s
  · rwa [exec_status hi hexec]

/-! ### The invariant -/

theorem Status.atReset_legal : Status.atReset.legal := by simp [Status.legal, Status.atReset]

theorem exec_inv {i : Instr} {s t : State} (h : s.Inv) (hexec : exec i s = .next t) : t.Inv := by
  obtain ⟨hacc, hwork, hlits⟩ := exec_inRange h.inRange hexec
  have hp := exec_params hexec
  exact ⟨hp ▸ h.params, hp ▸ exec_capacity h.capacity hexec, exec_status_legal h.status hexec, hacc, hwork, hlits⟩

/-- What the host has still to do is no part of the invariant. -/
theorem State.Inv.setPending {s : State} (h : s.Inv) (events : List HostEvent) :
    State.Inv { s with pending := events } := ⟨h.params, h.capacity, h.status, h.acc, h.work, h.lits⟩

theorem State.Inv.reject {s : State} (h : s.Inv) (c : ResponseCode) : (s.reject c).Inv :=
  ⟨h.params, h.capacity, h.status, h.acc, h.work, h.lits⟩

theorem State.Inv.resetCore {s : State} (h : s.Inv) (m : Mode) : (s.resetCore m).Inv :=
  ⟨h.params, Memory.wf_nil _, Status.atReset_legal, h.acc, h.work, h.lits⟩

/-- Settles O53: each thing a step can do keeps the invariant, a command field by field. -/
theorem stepKeepsInvariant : Obligations.StepKeepsInvariant := by
  intro s t h hstep
  rcases step_cases hstep with ⟨-, rfl⟩ | ⟨events, -, rfl⟩ | ⟨m, events, -, rfl⟩ | ⟨bytes, events, op, rest, -, -, rfl⟩ |
    ⟨bytes, events, i, rest, -, -, hexec⟩
  · exact h
  · exact h.setPending events
  · exact (h.setPending events).resetCore m
  · exact (h.setPending _).reject .illegal
  · exact exec_inv (h.setPending _) hexec

/-- Settles O52: the parameters are legal ones by construction, and every other clause is evaluated. -/
theorem resetMeetsInvariant : Obligations.ResetMeetsInvariant :=
  ⟨Config.link.wf, State.reset_memory_wf, Status.atReset_legal, rfl, Nat.zero_le _, Nat.zero_le _⟩

/-- Settles O50: by the four values of OUTCOME and the four of REASON. -/
theorem statusValues : Obligations.StatusValues := by
  rintro ⟨o, r⟩
  rcases o with _ | _ | _ | _ <;> rcases r with _ | _ | _ | _ <;>
    simp [Status.legal, Status.word, outcomeBits, reasonBits]

end Sys2Proof.Machine
end

section
/-!
SUPPORT. The laws of the escaper (spec/40_escaper.md R36): one unit and a whole stream come back from their wire form, and
the length of the wire form.
-/

namespace Sys2Proof.Machine

theorem escape_of_isSpecial {p : Params} {b : Byte} (h : isSpecial p b = true) : escape p b = [p.esc, b] := if_pos h

theorem escape_of_not_isSpecial {p : Params} {b : Byte} (h : ¬ isSpecial p b = true) : escape p b = [b] := if_neg h

@[simp] theorem escapeAll_nil (p : Params) : escapeAll p [] = [] := rfl

@[simp] theorem escapeAll_cons (p : Params) (b : Byte) (s : List Byte) :
    escapeAll p (b :: s) = escape p b ++ escapeAll p s := List.flatMap_cons ..

@[simp] theorem unescape_esc_cons (p : Params) (b : Byte) (rest : List Byte) :
    unescape p (p.esc :: b :: rest) = .lit b := by simp [unescape]

theorem unescape_plain {p : Params} {b : Byte} (h : b ≠ p.esc) (rest : List Byte) :
    unescape p (b :: rest) = .raw b := by
  cases rest <;> simp [unescape, h]

/-- Law 1: the first unit of a stream that begins with an escaped byte is that byte. -/
theorem unescape_escape (p : Params) (b : Byte) (rest : List Byte) :
    unescape p (escape p b ++ rest) = if isSpecial p b = true then .lit b else .raw b := by
  by_cases h : isSpecial p b = true
  · rw [escape_of_isSpecial h, if_pos h]
    exact unescape_esc_cons p b rest
  · have hne : b ≠ p.esc := fun he => h ((isSpecial_iff p b).mpr (.inr (.inr he)))
    rw [escape_of_not_isSpecial h, if_neg h]
    exact unescape_plain hne rest

/-- One step of the unit-by-unit decoder takes an escaped byte off the front. -/
theorem decodeUnits_escape (p : Params) (fuel : Nat) (b : Byte) (rest : List Byte) :
    decodeUnits p (fuel + 1) (escape p b ++ rest) = (decodeUnits p fuel rest).map (b :: ·) := by
  rw [decodeUnits, unescape_escape]
  by_cases h : isSpecial p b = true
  · simp [h, escape_of_isSpecial h]
  · simp [h, escape_of_not_isSpecial h]

/-- Law 2: a stream of escaped bytes comes back, one unit for each byte. -/
theorem decodeUnits_escapeAll (p : Params) (s : List Byte) :
    decodeUnits p s.length (escapeAll p s) = some s := by
  induction s with
  | nil => rfl
  | cons b s ih => rw [escapeAll_cons, List.length_cons, decodeUnits_escape, ih]; rfl

theorem escape_length (p : Params) (b : Byte) : (escape p b).length = if isSpecial p b = true then 2 else 1 := by
  unfold escape
  split <;> rfl

/-- Law 4: the wire form has one byte more for each special byte. -/
theorem escapeAll_length (p : Params) (s : List Byte) :
    (escapeAll p s).length = s.length + s.countP (isSpecial p) := by
  induction s with
  | nil => rfl
  | cons b s ih =>
    rw [escapeAll_cons, List.length_append, escape_length, ih, List.countP_cons, List.length_cons]
    split <;> omega

/-- Settles O13: by whether a byte is special, and by induction on the stream. -/
theorem escaperRoundTrip : Obligations.EscaperRoundTrip := by
  refine fun p => ⟨fun b rest => ?_, decodeUnits_escapeAll p, escapeAll_length p⟩
  simp only [unescape_escape, isSpecial_iff]

end Sys2Proof.Machine
end

section
/-!
SUPPORT. The laws of the framer (spec/43_framer.md, Laws of the framer): the frames of a payload that is cut after its first
sub-frame, the size of the output, and framing in pieces.
-/

namespace Sys2Proof.Machine

/-- The first 8 bytes of a longer payload make the first frame. -/
theorem frame_cons {w rest : List Byte} (hw : w.length = 8) (hr : rest ≠ []) (p : Params) (m : Mode) :
    frame p m (w ++ rest) = frame p m w ++ frame p m rest := by
  rw [frame, subframes_cons hw hr, List.flatMap_cons, frame_short hw.le]
  rfl

/-- Settles O29: by induction along the sub-frames of the first piece, each of 8 bytes. -/
theorem frameSplitsAtMultiplesOfEight : Obligations.FrameSplitsAtMultiplesOfEight := by
  intro p m p1 p2
  induction p1 using subframe_induction with
  | short w hw =>
    intro hmod hne h2
    have hpos := List.length_pos_iff.mpr hne
    exact frame_cons (by omega) h2 p m
  | cons w rest hw hr ih =>
    intro hmod _ h2
    rw [List.length_append] at hmod
    rw [List.append_assoc, frame_cons hw (by simp [hr]), ih (by omega) hr h2, frame_cons hw hr, List.append_assoc]

theorem escape_length_bounds (p : Params) (b : Byte) : 1 ≤ (escape p b).length ∧ (escape p b).length ≤ 2 := by
  rw [escape_length]
  split <;> omega

/-- A frame is START, STOP, and at least one and at most two bytes for each data byte and for the check byte. -/
theorem wireFrame_length_bounds (p : Params) (d : List Byte) (c : Byte) :
    d.length + 3 ≤ (wireFrame p d c).length ∧ (wireFrame p d c).length ≤ 2 * d.length + 4 := by
  have hcheck := escape_length_bounds p c
  have hspecial := List.countP_le_length (p := isSpecial p) (l := d)
  simp only [wireFrame, List.length_append, List.length_cons, List.length_nil, escapeAll_length]
  omega

/-- The size of the frames of a payload, from the sizes of the single frames. -/
theorem frame_length_bounds (p : Params) (m : Mode) (payload : List Byte) :
    payload.length + 3 * subframeCount payload.length ≤ (frame p m payload).length ∧
    (frame p m payload).length ≤ 2 * payload.length + 4 * subframeCount payload.length := by
  induction payload using subframe_induction with
  | short w hw =>
    rw [frame_short hw, subframeCount_short hw]
    exact wireFrame_length_bounds p w _
  | cons w rest hw hr ih =>
    have hfirst := wireFrame_length_bounds p w (check m w)
    rw [frame_cons hw hr, frame_short hw.le, List.length_append, List.length_append, hw,
      subframeCount_add (List.length_pos_iff.mpr hr)]
    omega

/-- A legal payload's frames fit the 16-bit RLEN field (R31). -/
theorem frame_length_le_of_legal {payload : List Byte} (h : payload.length ≤ 26208) (p : Params) (m : Mode) :
    (frame p m payload).length ≤ 65520 := by
  have hbound := (frame_length_bounds p m payload).2
  simp only [subframeCount, Config.subframeMax] at hbound
  omega

/-- Settles O28: by induction along the sub-frames, one frame at a time. -/
theorem frameSize : Obligations.FrameSize := fun p m payload =>
  ⟨(frame_length_bounds p m payload).1, (frame_length_bounds p m payload).2, fun h => frame_length_le_of_legal h p m⟩

end Sys2Proof.Machine
end

section
/-!
SUPPORT. The responses of the commands (spec/30_encoding.md R31, R32, R33): one for each command, with a code of its opcode
and data that fits RLEN, and no change of state with an error response.
-/

namespace Sys2Proof.Machine

/-! ### What a command of legal length answers -/

/-- `t` is `s` after the command `i`, run with a legal LEN, answered `r`: a code of the table of R32, data that fits RLEN,
and nothing but the response new where it is OVERFLOW. -/
structure Answers (i : Instr) (s t : State) (r : Response) : Prop where
  responses : t.responses = s.responses ++ [r]
  code : r.code ∈ answerCodes i
  length : r.data.length ≤ 65535
  overflow : r.code = .overflow → t = s.reject .overflow

/-- An answer whose code is not OVERFLOW. -/
theorem Answers.of_ne_overflow {i : Instr} {s t : State} {r : Response} (ht : t.responses = s.responses ++ [r])
    (hcode : r.code ∈ answerCodes i) (hlen : r.data.length ≤ 65535) (hne : r.code ≠ .overflow) : Answers i s t r :=
  ⟨ht, hcode, hlen, fun h => absurd h hne⟩

/-- The answer OK, with data. -/
theorem Answers.ok {i : Instr} {s t : State} {d : List Byte} (ht : t.responses = s.responses ++ [⟨.ok, d⟩])
    (hcode : .ok ∈ answerCodes i) (hlen : d.length ≤ 65535) : Answers i s t ⟨.ok, d⟩ :=
  .of_ne_overflow ht hcode hlen (by simp)

/-- UNESCAPE answers the token it finds (R35). -/
theorem Token.answers (k : Token) (o : List Byte) (s : State) : Answers (.unescape o) s
    (s.answered s.rb s.status k.response.code k.response.data) k.response := by
  cases k with
  | empty | incomplete =>
    exact .of_ne_overflow rfl (by simp [Token.response, answerCodes]) (by simp [Token.response]) nofun
  | raw b | lit b => exact .ok rfl (.head _) (by simp)

/-- A verify operand of legal length is a sub-frame and a check byte (R31). -/
theorem eq_append_singleton_of_length {o : List Byte} (h : 1 ≤ o.length ∧ o.length ≤ Config.subframeMax + 1) :
    ∃ w r, o = w ++ [r] ∧ w.length ≤ 8 := by
  obtain rfl | ⟨w, r, rfl⟩ := List.eq_nil_or_concat' o
  · simp at h
  · exact ⟨w, r, rfl, by simpa using h⟩

/-- A DEFRAME answers an outcome, and at most the 8 data bytes of a frame (R58). -/
theorem exec_deframe_answers (s : State) : ∃ t r, exec (.deframe []) s = .next t ∧ Answers (.deframe []) s t r := by
  obtain ⟨rb, u, c, d, tr, h, hrow⟩ := deframeFinishesOnce.1 s
  have hcode : c ∈ answerCodes (.deframe []) ∧ d.length ≤ 8 := by
    rcases hrow with ⟨-, -, rfl, -, hd⟩ | ⟨-, -, rfl, -, rfl⟩ | ⟨-, -, rfl, -, rfl⟩ | ⟨-, -, rfl, -, rfl⟩ |
      ⟨-, -, rfl, -, rfl⟩
    · exact ⟨.head _, hd⟩
    all_goals simp [answerCodes]
  refine ⟨_, ⟨c, d⟩, h, .of_ne_overflow rfl hcode.1 (Nat.le_trans hcode.2 (by decide)) ?_⟩
  rintro rfl
  simp [answerCodes] at hcode

/-- Every command of legal length answers once, as `Answers` says. -/
theorem exec_answers {i : Instr} (hl : legalLen i = true) (s : State) :
    ∃ t r, exec i s = .next t ∧ Answers i s t r := by
  cases i with
  | escape o =>
    obtain ⟨b, rfl⟩ := List.length_eq_one_iff.mp (of_decide_eq_true hl)
    have hlen := (escape_length_bounds s.params b).2
    exact ⟨_, _, exec_escape_singleton b s, .ok rfl (.head _) (by omega)⟩
  | unescape o =>
    exact ⟨_, _, exec_unescape_of_length_le (of_decide_eq_true hl) s, Token.answers ..⟩
  | parCompute o =>
    exact ⟨_, _, exec_parCompute_of_length_le (of_decide_eq_true hl) s, .ok rfl (.head _) (by simp)⟩
  | parVerify o =>
    obtain ⟨w, r, rfl, hw⟩ := eq_append_singleton_of_length (of_decide_eq_true hl)
    exact ⟨_, _, exec_parVerify_of_length_le hw r s, .ok rfl (.head _) (by simp)⟩
  | crcCompute o =>
    exact ⟨_, _, exec_crcCompute_of_length_le (of_decide_eq_true hl) s, .ok rfl (.head _) (by simp)⟩
  | crcVerify o =>
    obtain ⟨w, r, rfl, hw⟩ := eq_append_singleton_of_length (of_decide_eq_true hl)
    exact ⟨_, _, exec_crcVerify_of_length_le hw r s, .ok rfl (.head _) (by simp)⟩
  | frame o =>
    have ho : o.length ≤ 26208 := of_decide_eq_true hl
    have hlen := frame_length_le_of_legal ho s.params s.mode
    exact ⟨_, _, exec_frame_of_length_le ho s, .ok rfl (.head _) (by omega)⟩
  | deframe o =>
    obtain rfl := List.length_eq_zero_iff.mp (of_decide_eq_true hl)
    exact exec_deframe_answers s
  | rbAppend o =>
    have hexec := exec_rbAppend_of_length_le (of_decide_eq_true hl) s
    split_ifs at hexec
    · exact ⟨_, _, hexec, .ok rfl (.head _) (by simp)⟩
    · exact ⟨_, _, hexec, rfl, by simp [answerCodes], by simp, fun _ => rfl⟩
  | statusRead o =>
    obtain rfl := List.length_eq_zero_iff.mp (of_decide_eq_true hl)
    exact ⟨_, _, exec_statusRead_nil s, .ok rfl (.head _) (by simp)⟩
  | cfgRead o =>
    obtain rfl := List.length_eq_zero_iff.mp (of_decide_eq_true hl)
    exact ⟨_, _, exec_cfgRead_nil s, .ok rfl (.head _) (by simp)⟩

/-! ### The error responses -/

theorem error_not_mem_answerCodes (i : Instr) : .badLen ∉ answerCodes i ∧ .illegal ∉ answerCodes i := by
  cases i <;> simp [answerCodes]

/-- No command of legal length answers BADLEN or ILLEGAL (R33). -/
theorem Answers.not_error {i : Instr} {s t : State} {r : Response} (h : Answers i s t r) :
    r.code ≠ .badLen ∧ r.code ≠ .illegal :=
  ⟨ne_of_mem_of_not_mem h.code (error_not_mem_answerCodes i).1,
    ne_of_mem_of_not_mem h.code (error_not_mem_answerCodes i).2⟩

/-- What any command answers: BADLEN with nothing else new, or as `Answers` says. -/
theorem exec_cases (i : Instr) (s : State) :
    legalLen i = false ∧ exec i s = .next (s.reject .badLen) ∨
    legalLen i = true ∧ ∃ t r, exec i s = .next t ∧ Answers i s t r := by
  cases hl : legalLen i with
  | false => exact .inl ⟨rfl, exec_of_illegal hl s⟩
  | true => exact .inr ⟨rfl, exec_answers hl s⟩

theorem State.reject_response {s : State} {c : ResponseCode} {r : Response}
    (h : (s.reject c).responses = s.responses ++ [r]) : r = ⟨c, []⟩ := by
  simpa using h.symm

/-- An OVERFLOW has no data (R32). -/
theorem Answers.eq_of_overflow {i : Instr} {s t : State} {r : Response} (h : Answers i s t r)
    (hr : r.code = .overflow) : r = ⟨.overflow, []⟩ :=
  State.reject_response (h.overflow hr ▸ h.responses)

/-- The one response that a command has added, as a BADLEN or as `Answers` says. -/
theorem response_cases {i : Instr} {s t : State} {r : Response} (hexec : exec i s = .next t)
    (hr : t.responses = s.responses ++ [r]) : t = s.reject .badLen ∧ r = ⟨.badLen, []⟩ ∨ Answers i s t r := by
  obtain ⟨-, h⟩ | ⟨-, t', r', h, hans⟩ := exec_cases i s
  · obtain rfl := Host.Outcome.next.inj (hexec.symm.trans h)
    exact .inl ⟨rfl, State.reject_response hr⟩
  · obtain rfl := Host.Outcome.next.inj (hexec.symm.trans h)
    obtain rfl : r' = r := by simpa using hans.responses.symm.trans hr
    exact .inr hans

/-- Settles O7: a reserved opcode is settled by the decoder, a LEN by its range, and a command of legal length answers
a code of its own. -/
theorem commandChecksInOrder : Obligations.CommandChecksInOrder := by
  refine ⟨fun s op hi lo operand rest events hop hlen hp => ?_, fun i s hout => ?_, fun i s hlo hhi => ?_⟩
  · have hnone : instrOf op operand = none := (instrOf_none_iff op operand).mpr (by omega)
    have hd : decode (op :: hi :: lo :: (operand ++ rest)) = .reserved op rest := by
      rw [decode_header hlen, hnone]
      rfl
    exact step_of_reserved hp hd
  · exact exec_of_illegal (Bool.eq_false_iff.mpr (mt (legalLen_iff i).mp (by omega))) s
  · obtain ⟨t, r, h, hans⟩ := exec_answers ((legalLen_iff i).mpr ⟨hlo, hhi⟩) s
    exact ⟨t, r, h, hans.responses, hans.not_error⟩

/-- Settles O8: by whether the operand's length is legal. -/
theorem everyCommandAnswersOnce : Obligations.EveryCommandAnswersOnce := by
  intro i s
  obtain ⟨-, h⟩ | ⟨-, t, r, h, hans⟩ := exec_cases i s
  · exact ⟨_, _, h, State.reject_responses .., .inl rfl, fun _ => rfl⟩
  · refine ⟨t, r, h, hans.responses, .inr hans.code, ?_⟩
    rintro (hbad | hover)
    · exact absurd hbad hans.not_error.1
    · rw [hans.eq_of_overflow hover]

/-- Settles O9: BADLEN and OVERFLOW are rejections, no command answers ILLEGAL, and the step rejects a reserved opcode. -/
theorem errorResponsesChangeNothing : Obligations.ErrorResponsesChangeNothing := by
  refine ⟨fun i s t r hexec hr herr => ?_, fun s bytes rest op events hp hd => step_of_reserved hp hd⟩
  obtain ⟨rfl, rfl⟩ | hans := response_cases hexec hr
  · rfl
  · obtain hbad | hover | hill := herr
    · exact absurd hbad hans.not_error.1
    · rw [hover]
      exact hans.overflow hover
    · exact absurd hill hans.not_error.2

/-- The serial form of a response whose data fits RLEN (R29). -/
theorem Response.bytes_of_length_le {r : Response} (h : r.data.length ≤ 65535) :
    ∃ hi lo : Byte, r.bytes = r.code.byte :: hi :: lo :: r.data ∧ hi.toNat * 256 + lo.toNat = r.data.length :=
  ⟨_, _, rfl, lenOf_of_lenBytes h⟩

/-- Settles O10: every response fits RLEN, and the codes' bytes are those of the table. -/
theorem responsesFitRlen : Obligations.ResponsesFitRlen := by
  refine ⟨fun i s t r hexec hr => ?_, by decide, by decide⟩
  have hlen : r.data.length ≤ 65535 := by
    obtain ⟨-, rfl⟩ | hans := response_cases hexec hr
    · exact Nat.zero_le _
    · exact hans.length
  exact ⟨hlen, Response.bytes_of_length_le hlen⟩

end Sys2Proof.Machine
end

section
/-!
SUPPORT. The laws of parity (spec/41_parity.md, Laws of parity): the parity of a concatenation and of a bytewise XOR are the
XOR of the parities.
-/

namespace Sys2Proof.Machine

/-- The XOR of two parity bytes adds their bits mod 2. -/
theorem par_xor_par (s t : List Byte) : par s ^^^ par t = BitVec.ofNat 8 ((onesCount s + onesCount t) % 2) := by
  rcases Nat.mod_two_eq_zero_or_one (onesCount s) with hs | hs <;>
    rcases Nat.mod_two_eq_zero_or_one (onesCount t) with ht | ht <;> simp [par, Nat.add_mod, hs, ht]

theorem par_append (s t : List Byte) : par (s ++ t) = par s ^^^ par t := by
  rw [par_xor_par, par, onesCount_append]

/-- Counting where two flags differ counts both, mod 2. -/
theorem countP_xor_mod_two {α : Type} (f g : α → Bool) (l : List α) :
    l.countP (fun a => f a ^^ g a) % 2 = (l.countP f + l.countP g) % 2 := by
  induction l with
  | nil => rfl
  | cons a l ih =>
    simp only [List.countP_cons]
    cases f a <;> cases g a <;> simp <;> omega

theorem popcount_xor_mod_two (a b : Byte) : popcount (a ^^^ b) % 2 = (popcount a + popcount b) % 2 := by
  simpa [popcount] using countP_xor_mod_two a.getLsbD b.getLsbD (List.range 8)

/-- The parity of a byte under a flip pattern. -/
theorem par_singleton_xor (a b : Byte) : par [a ^^^ b] = par [a] ^^^ par [b] := by
  rw [par_xor_par, par]
  simp only [onesCount, List.map_cons, List.map_nil, List.sum_cons, List.sum_nil, Nat.add_zero, popcount_xor_mod_two]

theorem par_cons (b : Byte) (s : List Byte) : par (b :: s) = par [b] ^^^ par s := par_append [b] s

/-- The parity of a bytewise XOR, by induction on the two sequences. -/
theorem par_zipWith_xor {s e : List Byte} (h : s.length = e.length) :
    par (List.zipWith (· ^^^ ·) s e) = par s ^^^ par e := by
  induction s generalizing e with
  | nil => simp [List.length_eq_zero_iff.mp h.symm]
  | cons a s ih =>
    obtain ⟨b, e, rfl⟩ := List.exists_cons_of_length_eq_add_one h.symm
    rw [List.zipWith_cons_cons, par_cons, par_singleton_xor, ih (by simpa using h), par_cons a s, par_cons b e]
    ac_rfl

theorem par_eq_zero_iff (s : List Byte) : par s = 0x00 ↔ onesCount s % 2 = 0 := by
  rw [← BitVec.toNat_inj, par_toNat]
  rfl

/-- Settles O17: a flip pattern goes unnoticed exactly when its own parity is 0. -/
theorem parityDetectsOddFlips : Obligations.ParityDetectsOddFlips := by
  refine ⟨fun s e h => ?_, par_append⟩
  calc parVerify (List.zipWith (· ^^^ ·) s e) (par s) = false
      ↔ ¬ par s ^^^ par e = par s := by rw [parVerify, par_zipWith_xor h, beq_eq_false_iff_ne]
    _ ↔ ¬ onesCount e % 2 = 0 := by rw [xor_left_eq_self_iff, ← par_eq_zero_iff]
    _ ↔ ((e.flatMap bitsOf).count true) % 2 = 1 := by rw [onesCount_eq_count_true, ← Nat.mod_two_ne_zero]

end Sys2Proof.Machine
end

section
/-!
SUPPORT. The laws of the CRC on its 8 bits of state (spec/42_crc8.md R45): one clock and one byte are linear and lose
nothing, so the CRC is linear, ignores leading zeros and notices every single flipped bit.
-/

namespace Sys2Proof.Machine

/-! ### One clock -/

/-- What a clock XORs into the accumulator: the generator when the bit shifted out is set (R41). -/
def feedback (c : Bool) : BitVec 9 := if c then Config.gen else 0

theorem feedback_xor (c d : Bool) : feedback (c ^^ d) = feedback c ^^^ feedback d := by
  cases c <;> cases d <;> decide

theorem lfsrClock_eq_concat_xor_feedback (a : Byte) (bit : Bool) :
    lfsrClock (a.setWidth 9) bit = a.concat bit ^^^ feedback (a.getLsbD 7) := by
  have h8 : (a.concat bit).getLsbD 8 = a.getLsbD 7 := BitVec.getLsbD_concat_succ
  simp only [lfsrClock, shiftLeft_or_ofBool_eq_concat, h8, feedback]
  split <;> simp

/-- One clock is linear (R45 law 3). -/
theorem crcStep_xor (a b : Byte) (x y : Bool) : crcStep (a ^^^ b) (x ^^ y) = crcStep a x ^^^ crcStep b y := by
  simp only [crcStep, lfsrClock_eq_concat_xor_feedback, ← BitVec.concat_xor_concat, BitVec.getLsbD_xor, feedback_xor,
    ← BitVec.setWidth_xor]
  congr 1
  ac_rfl

/-- A clock that leaves zero found zero: the generator is odd, so no feedback gives it. -/
theorem eq_zero_of_crcStep_eq_zero {a : Byte} (h : crcStep a false = 0) : a = 0 := by
  have hval := toNat_crcStep a false
  rw [h] at hval
  apply BitVec.eq_of_toNat_eq
  split_ifs at hval
  · have hgen : 2 * a.toNat = 0x1D5 := Nat.xor_eq_zero_iff.mp hval.symm
    omega
  · simpa [eq_comm] using hval

/-- A clock loses nothing of the 8 bits of state. -/
theorem crcStep_injective (bit : Bool) : Function.Injective (crcStep · bit) := by
  intro a b (h : crcStep a bit = crcStep b bit)
  have hzero : crcStep (a ^^^ b) false = 0 := by rw [← Bool.xor_self bit, crcStep_xor, h]; exact BitVec.xor_self
  exact BitVec.xor_eq_zero_iff.mp (eq_zero_of_crcStep_eq_zero hzero)

/-! ### One byte -/

/-- The CRC's 8 bits of state after one more byte (R42). -/
def crcByte (a b : Byte) : Byte := (bitsOf b).foldl crcStep a

theorem crc_append_eq_foldl (s t : List Byte) : crc (s ++ t) = t.foldl crcByte (crc s) := by
  rw [crc_append, List.foldl_flatMap]
  rfl

theorem crc_eq_foldl (s : List Byte) : crc s = s.foldl crcByte 0 := crc_append_eq_foldl [] s

/-- One byte is linear in the state and the byte together. -/
theorem crcByte_xor (a b x y : Byte) : crcByte (a ^^^ b) (x ^^^ y) = crcByte a x ^^^ crcByte b y := by
  simp only [crcByte, bitsOf, List.map_cons, List.map_nil, List.foldl_cons, List.foldl_nil, BitVec.getLsbD_xor,
    crcStep_xor]

theorem crcByte_zero_left (b : Byte) : crcByte 0#8 b = b := (crc_eq_foldl [b]).symm.trans (crc_singleton b)

/-- What is XORed into a byte comes out XORed into the state. -/
theorem crcByte_xor_right (a b f : Byte) : crcByte a (b ^^^ f) = crcByte a b ^^^ f := by
  simpa [crcByte_zero_left] using crcByte_xor a 0 b f

/-- A fold whose every step loses nothing of the state loses nothing of it. -/
theorem foldl_injective {α β : Type} {f : α → β → α} (hf : ∀ b, Function.Injective (f · b)) (l : List β) :
    Function.Injective (l.foldl f ·) := by
  induction l with
  | nil => exact fun _ _ h => h
  | cons b l ih => exact fun _ _ h => hf b (ih h)

theorem crcByte_injective (b : Byte) : Function.Injective (crcByte · b) := foldl_injective crcStep_injective (bitsOf b)

/-! ### Sequences -/

theorem foldl_crcByte_zipWith_xor {s e : List Byte} (h : s.length = e.length) (a b : Byte) :
    (List.zipWith (· ^^^ ·) s e).foldl crcByte (a ^^^ b) = s.foldl crcByte a ^^^ e.foldl crcByte b := by
  induction s generalizing e a b with
  | nil => rw [List.length_eq_zero_iff.mp h.symm]; rfl
  | cons x s ih =>
    obtain ⟨y, e, rfl⟩ := List.exists_cons_of_length_eq_add_one h.symm
    rw [List.zipWith_cons_cons, List.foldl_cons, crcByte_xor, ih (by simpa using h), List.foldl_cons, List.foldl_cons]

/-- Settles O23: each byte is linear, and a byte is XORed into the state after eight clocks of zeros. -/
theorem crcIsLinear : Obligations.CrcIsLinear := by
  refine ⟨fun s e h => ?_, fun s b => ?_⟩
  · simpa [crc_eq_foldl] using foldl_crcByte_zipWith_xor h 0 0
  · calc crc (s ++ [b]) = crcByte (crc s) (0#8 ^^^ b) := by rw [crc_append_eq_foldl, BitVec.zero_xor]; rfl
      _ = crcByte (crc s) 0#8 ^^^ b := crcByte_xor_right ..
      _ = crc [crc s, 0x00] ^^^ b := by rw [← List.singleton_append, crc_append_eq_foldl, crc_singleton]; rfl

/-- Settles O25: zeros leave the accumulator at the zero it starts from. -/
theorem crcIgnoresLeadingZeros : Obligations.CrcIgnoresLeadingZeros := by
  intro n s
  rw [crc_append_eq_foldl, crc_replicate_zero, crc_eq_foldl]

/-! ### Single flipped bits -/

/-- A list around one position, and the list with that position modified. -/
theorem exists_modify_eq {α : Type} {l : List α} {j : Nat} (hj : j < l.length) :
    ∃ a b c, l = a ++ b :: c ∧ ∀ f : α → α, l.modify j f = a ++ f b :: c :=
  ⟨l.take j, l[j], l.drop (j + 1), by rw [List.cons_getElem_drop_succ, List.take_append_drop],
    fun _ => List.modify_eq_take_cons_drop hj⟩

theorem oneBit_ne_zero {k : Nat} (hk : k < 8) : 1#8 <<< k ≠ 0#8 := by
  interval_cases k <;> decide

/-- A flip pattern other than zero in one byte changes the CRC. -/
theorem crc_flip_ne {f : Byte} (hf : f ≠ 0) (a : List Byte) (b : Byte) (c : List Byte) :
    crc (a ++ (b ^^^ f) :: c) ≠ crc (a ++ b :: c) := by
  rw [crc_append_eq_foldl, crc_append_eq_foldl, List.foldl_cons, List.foldl_cons, crcByte_xor_right]
  intro h
  exact hf (xor_left_eq_self_iff.mp (foldl_injective crcByte_injective c h))

/-- Settles O24: by the bytes before and after the flipped bit, which lose nothing. -/
theorem crcDetectsSingleBitErrors : Obligations.CrcDetectsSingleBitErrors := by
  intro s j k hj hk
  obtain ⟨a, b, c, rfl, hmodify⟩ := exists_modify_eq hj
  rw [hmodify]
  exact crc_flip_ne (oneBit_ne_zero hk) a b c

end Sys2Proof.Machine
end

section
/-!
SUPPORT. The CRC as polynomial division over GF(2) (spec/42_crc8.md R45 law 1): each clock multiplies by X, adds the bit
and subtracts a multiple of the generator, and the 8 bits of state are a polynomial of lower degree.
-/

namespace Sys2Proof.Machine

open Polynomial

/-- A bit as a coefficient over GF(2). -/
def bitCoeff (b : Bool) : ZMod 2 := if b then 1 else 0

theorem bitCoeff_xor (b c : Bool) : bitCoeff (b ^^ c) = bitCoeff b + bitCoeff c := by
  cases b <;> cases c <;> decide

/-- The polynomial of a word: bit k is the coefficient of X^k. -/
noncomputable def bitPoly {w : Nat} (v : BitVec w) : (ZMod 2)[X] :=
  ∑ k ∈ Finset.range w, C (bitCoeff (v.getLsbD k)) * X ^ k

theorem bitPoly_zero (w : Nat) : bitPoly (0#w) = 0 := by simp [bitPoly, bitCoeff]

theorem bitPoly_xor {w : Nat} (u v : BitVec w) : bitPoly (u ^^^ v) = bitPoly u + bitPoly v := by
  simp only [bitPoly, BitVec.getLsbD_xor, bitCoeff_xor, C_add, add_mul, Finset.sum_add_distrib]

/-- Shifting in a bit multiplies by X and adds the bit. -/
theorem bitPoly_concat {w : Nat} (v : BitVec w) (b : Bool) : bitPoly (v.concat b) = bitPoly v * X + C (bitCoeff b) := by
  simp only [bitPoly, Finset.sum_range_succ', BitVec.getLsbD_concat_succ, BitVec.getLsbD_concat_zero, Finset.sum_mul,
    pow_succ, mul_assoc, pow_zero, mul_one]

theorem bitPoly_setWidth_succ (a : Byte) : bitPoly (a.setWidth 9) = bitPoly a := by
  rw [bitPoly, Finset.sum_range_succ]
  simp [bitPoly, bitCoeff, Finset.sum_range_succ]

/-- The generator 1 1101 0101 as a polynomial (R6). -/
noncomputable def genPoly : (ZMod 2)[X] := X ^ 8 + X ^ 7 + X ^ 6 + X ^ 4 + X ^ 2 + 1

theorem bitPoly_gen : bitPoly Config.gen = genPoly := by
  simp [bitPoly, genPoly, bitCoeff, Finset.sum_range_succ, Config.gen]
  ring

theorem bitPoly_feedback (c : Bool) : bitPoly (feedback c) = C (bitCoeff c) * genPoly := by
  cases c
  · simp [feedback, bitPoly, bitCoeff]
  · simp [feedback, bitPoly_gen, bitCoeff]

/-- One clock multiplies by X, adds the bit, and adds the generator when the bit shifted out is set. -/
theorem bitPoly_crcStep (a : Byte) (b : Bool) :
    bitPoly (crcStep a b) = bitPoly a * X + C (bitCoeff b) + C (bitCoeff (a.getLsbD 7)) * genPoly := by
  rw [← bitPoly_setWidth_succ, ← lfsrClock_eq_crcStep, lfsrClock_eq_concat_xor_feedback, bitPoly_xor, bitPoly_concat,
    bitPoly_feedback]

/-- The polynomial with one more bit, as the coefficient of lowest degree. -/
noncomputable def shiftIn (q : (ZMod 2)[X]) (b : Bool) : (ZMod 2)[X] := q * X + C (if b then 1 else 0)

/-- Clocking in bits and shifting them into a polynomial agree up to a multiple of the generator. -/
theorem genPoly_dvd_foldl (bits : List Bool) (q : (ZMod 2)[X]) (a : Byte) (h : genPoly ∣ q - bitPoly a) :
    genPoly ∣ bits.foldl shiftIn q - bitPoly (bits.foldl crcStep a) := by
  induction bits generalizing q a with
  | nil => exact h
  | cons b bits ih =>
    refine ih _ _ ?_
    have hstep : shiftIn q b - bitPoly (crcStep a b) =
        (q - bitPoly a) * X - C (bitCoeff (a.getLsbD 7)) * genPoly := by
      rw [bitPoly_crcStep, shiftIn, bitCoeff]
      ring
    rw [hstep]
    exact (h.mul_right X).sub (Dvd.intro_left _ rfl)

/-- The bits of a byte, most significant first, shifted in one after another. -/
theorem foldl_shiftIn_bitsOf (a : Byte) : (bitsOf a).foldl shiftIn 0 = bitPoly a := by
  simp only [bitsOf, List.map_cons, List.map_nil, List.foldl_cons, List.foldl_nil, shiftIn, bitPoly,
    Finset.sum_range_succ, Finset.sum_range_zero, bitCoeff]
  ring

theorem genPoly_degree : genPoly.degree = 8 := by
  unfold genPoly
  compute_degree!

theorem genPoly_monic : genPoly.Monic := by
  unfold genPoly
  monicity!

theorem bitPoly_degree_lt (a : Byte) : (bitPoly a).degree < genPoly.degree := by
  rw [genPoly_degree]
  refine (degree_sum_le _ _).trans_lt ((Finset.sup_lt_iff (by decide)).mpr fun k hk => ?_)
  exact (degree_C_mul_X_pow_le k _).trans_lt (by exact_mod_cast Finset.mem_range.mp hk)

/-- Settles O22: the CRC's polynomial differs from the message's by a multiple of the generator, and its degree is
lower. -/
theorem crcIsPolynomialRemainder : Obligations.CrcIsPolynomialRemainder := by
  intro s
  have hdvd : genPoly ∣ (s.flatMap bitsOf).foldl shiftIn 0 - bitPoly (crc s) := by
    rw [show crc s = (s.flatMap bitsOf).foldl crcStep 0#8 from crc_append [] s]
    exact genPoly_dvd_foldl _ _ _ (by rw [bitPoly_zero, sub_zero]; exact dvd_zero _)
  calc (bitsOf (crc s)).foldl shiftIn 0 = bitPoly (crc s) := foldl_shiftIn_bitsOf _
    _ = bitPoly (crc s) %ₘ genPoly := ((modByMonic_eq_self_iff genPoly_monic).mpr (bitPoly_degree_lt _)).symm
    _ = (s.flatMap bitsOf).foldl shiftIn 0 %ₘ genPoly := (modByMonic_eq_of_dvd_sub genPoly_monic hdvd).symm

end Sys2Proof.Machine
end

section
/-!
SUPPORT. The laws of the deframer (spec/44_deframer.md R59) on what RB holds after a DEFRAME: an open frame after INCOMPLETE,
and at least 2 bytes less after DONE and CORRUPT.
-/

namespace Sys2Proof.Machine

/-! ### How a scan ends -/

/-- Every byte string is a run of wire units, and then nothing, a lone ESC, a STOP or a START (R28). -/
theorem exists_units_append (p : Params) : ∀ w : List Byte, ∃ us tail, w = unitBytes p us ++ tail ∧ (∀ u ∈ us, u.ok p) ∧
    (tail = [] ∨ tail = [p.esc] ∨ (∃ rest, tail = p.stop :: rest) ∨ ∃ rest, tail = p.start :: rest)
  | [] => ⟨[], [], rfl, by simp, .inl rfl⟩
  | [c] => by
    by_cases hc : c = p.start ∨ c = p.stop ∨ c = p.esc
    · refine ⟨[], [c], rfl, by simp, ?_⟩
      rcases hc with rfl | rfl | rfl <;> simp
    · exact ⟨[.plain c], [], rfl, by simpa [WireUnit.ok] using hc, .inl rfl⟩
  | c :: b :: w => by
    by_cases hesc : c = p.esc
    · obtain ⟨us, tail, rfl, hus, htail⟩ := exists_units_append p w
      exact ⟨.escaped b :: us, tail, by simp [unitBytes, WireUnit.bytes, hesc], by simpa [WireUnit.ok] using hus, htail⟩
    · by_cases hc : c = p.start ∨ c = p.stop
      · refine ⟨[], c :: b :: w, rfl, by simp, ?_⟩
        rcases hc with rfl | rfl <;> simp
      · obtain ⟨us, tail, hw, hus, htail⟩ := exists_units_append p (b :: w)
        refine ⟨.plain c :: us, tail, by simp [unitBytes, WireUnit.bytes, hw], ?_, htail⟩
        simp only [not_or] at hc
        simpa [WireUnit.ok, hc, hesc] using hus

/-- An open frame: START, at most 9 units, and perhaps an ESC whose literal has not arrived (R52, R53). -/
def OpenFrame (p : Params) (rb : Memory) : Prop :=
  ∃ (us : List WireUnit) (tail : List Byte), (∀ u ∈ us, u.ok p) ∧ us.length ≤ 9 ∧ (tail = [] ∨ tail = [p.esc]) ∧
    rb = p.start :: (unitBytes p us ++ tail)

theorem unitBytes_length_le (p : Params) (us : List WireUnit) : (unitBytes p us).length ≤ 2 * us.length := by
  induction us with
  | nil => exact Nat.le_refl 0
  | cons u us ih =>
    have hu : (u.bytes p).length ≤ 2 := by cases u <;> simp [WireUnit.bytes]
    have hcons : unitBytes p (u :: us) = u.bytes p ++ unitBytes p us := List.flatMap_cons ..
    rw [hcons, List.length_append, List.length_cons]
    omega

/-- START, nine escape pairs and an ESC are the longest open frame. -/
theorem OpenFrame.length_le {p : Params} {rb : Memory} (h : OpenFrame p rb) : rb.length ≤ 20 := by
  obtain ⟨us, tail, -, hl, htail, rfl⟩ := h
  have hunits := unitBytes_length_le p us
  have hesc : tail.length ≤ 1 := by rcases htail with rfl | rfl <;> simp
  rw [List.length_cons, List.length_append]
  omega

/-- The scan of an open frame keeps it. -/
theorem OpenFrame.scan {p : Params} {rb : Memory} (h : OpenFrame p rb) :
    (deframeScan p rb).event = .endOfBuffer ∧ (deframeScan p rb).rb = rb := by
  obtain ⟨us, tail, hus, hl, rfl | rfl, rfl⟩ := h
  · rw [List.append_nil, ← List.nil_append (p.start :: _), deframeScan_openFrame (by simp) hus hl]
    exact ⟨rfl, rfl⟩
  · rw [← List.nil_append (p.start :: _), deframeScan_trailingEsc (by simp) hus hl]
    exact ⟨rfl, rfl⟩

/-- A scan from a START on that reaches the end of RB leaves an open frame: the one it began with, or one that begins at a
later START (R52, R53, R55). -/
theorem openFrame_of_atStart {p : Params} (hp : p.Wf) (w : List Byte)
    (he : (deframeScan p (p.start :: w)).event = .endOfBuffer) : OpenFrame p (deframeScan p (p.start :: w)).rb := by
  induction hn : w.length using Nat.strong_induction_on generalizing w with
  | _ n ih =>
    obtain ⟨us, tail, rfl, hus, htail⟩ := exists_units_append p w
    by_cases hl : us.length ≤ 9
    · rcases htail with htail | htail | ⟨rest, rfl⟩ | ⟨rest, rfl⟩
      · have hopen : OpenFrame p (p.start :: (unitBytes p us ++ tail)) := ⟨us, tail, hus, hl, .inl htail, rfl⟩
        rwa [hopen.scan.2]
      · have hopen : OpenFrame p (p.start :: (unitBytes p us ++ tail)) := ⟨us, tail, hus, hl, .inr htail, rfl⟩
        rwa [hopen.scan.2]
      · have hscan := deframeScan_stop (g := []) (by simp) hus hl hp rest
        rw [List.nil_append] at hscan
        simp [hscan] at he
      · have hscan := deframeScan_startInside (g := []) (by simp) hus hl hp rest
        rw [List.nil_append] at hscan
        rw [hscan] at he ⊢
        exact ih _ (by simp [← hn]; omega) rest he rfl
    · have hten : (us.take 10).length = 10 := by simp; omega
      have hscan := deframeScan_tenthUnit (g := []) (by simp) (fun u hu => hus u (List.mem_of_mem_take hu)) hten
        (unitBytes p (us.drop 10) ++ tail)
      rw [List.nil_append, ← List.append_assoc, ← unitBytes_append, List.take_append_drop] at hscan
      simp [hscan] at he

theorem inFrame_event_ne_noStart {p : Params} (rb : Memory) (i : Nat) (lits unread : List Byte) :
    (inFrame p rb i lits unread).event ≠ .noStart := by
  fun_induction inFrame p rb i lits unread <;> simp_all

/-- What a scan that finds no whole frame leaves in RB: nothing, or an open frame. -/
theorem residue_of_scan {p : Params} (hp : p.Wf) (rb : Memory)
    (he : (deframeScan p rb).event = .noStart ∨ (deframeScan p rb).event = .endOfBuffer) :
    (deframeScan p rb).rb = [] ∨ OpenFrame p (deframeScan p rb).rb := by
  rcases seekStart_cases p rb with ⟨hnone, -⟩ | ⟨g, rest, hg, rfl, -⟩
  · exact .inl (by rw [deframeScan_none hnone])
  · rw [deframeScan_garbage hg] at he ⊢
    have hend := he.resolve_left (inFrame_event_ne_noStart _ _ _ _)
    rw [← deframeScan_atStart] at hend ⊢
    exact .inr (openFrame_of_atStart hp rest hend)

/-- A scan that a STOP or a tenth literal ends takes at least 2 bytes off RB: `i` bytes of the frame have been read, its
START among them, and the last byte read goes too. -/
theorem inFrame_progress {p : Params} (rb : Memory) (i : Nat) (lits unread : List Byte) (hi : 1 ≤ i)
    (hrb : rb.length = i + unread.length) (he : (inFrame p rb i lits unread).event ≠ .endOfBuffer) :
    (inFrame p rb i lits unread).rb.length + 2 ≤ rb.length := by
  fun_induction inFrame p rb i lits unread with
  | case1 | case2 => exact absurd rfl he
  | case3 | case5 | case7 =>
    simp only [Memory.dropFront, List.length_drop, List.length_cons] at hrb ⊢
    omega
  | case4 rb i lits b rest h ih | case8 rb i lits b rest _ _ _ h ih =>
    simp only [List.length_cons] at hrb
    exact ih (by omega) (by omega) he
  | case6 rb i lits rest _ _ ih =>
    have hrest : (rb.dropFront i).length = 1 + rest.length := by
      rw [Memory.dropFront, List.length_drop, hrb, List.length_cons]
      omega
    have hlt := ih (Nat.le_refl 1) hrest he
    rw [hrest] at hlt
    rw [hrb, List.length_cons]
    omega

/-- A DEFRAME that ends DONE or CORRUPT takes at least 2 bytes off RB, whatever stands before the frame. -/
theorem deframeScan_progress {p : Params} {rb : Memory} (hstart : (deframeScan p rb).event ≠ .noStart)
    (hend : (deframeScan p rb).event ≠ .endOfBuffer) : (deframeScan p rb).rb.length + 2 ≤ rb.length := by
  rcases seekStart_cases p rb with ⟨hnone, -⟩ | ⟨g, rest, hg, rfl, -⟩
  · exact absurd (by rw [deframeScan_none hnone]) hstart
  · rw [deframeScan_garbage hg] at hend ⊢
    have hlt := inFrame_progress (p.start :: rest) 1 [] rest (Nat.le_refl 1) (Nat.add_comm ..) hend
    rw [List.length_append]
    omega

/-! ### What the command answers -/

/-- INCOMPLETE is the outcome of exactly the scans that find no START or reach the end of RB (R51, R52, R53). -/
theorem deframe_outcome_incomplete_iff (s : State) : s.deframe.status.outcome = some .incomplete ↔
    (deframeScan s.params s.rb).event = .noStart ∨ (deframeScan s.params s.rb).event = .endOfBuffer := by
  rcases s.deframe_cases with ⟨hev, h⟩ | ⟨hev, h⟩ | ⟨hev, h⟩
  · simp [h, hev]
  · simp [h, hev]
  · obtain ⟨tr, ⟨-, hj⟩ | ⟨d, r, -, ⟨-, hj⟩ | ⟨-, hj⟩⟩⟩ :=
      (s.afterScan (deframeScan s.params s.rb)).judge_cases (deframeScan s.params s.rb).lits <;>
    simp [h, hj, hev]

/-- Settles O38: such an outcome means that a STOP or a tenth literal ended the scan. -/
theorem deframeMakesProgress : Obligations.DeframeMakesProgress := by
  intro s t hexec hout
  obtain rfl := Host.Outcome.next.inj ((exec_deframe_nil s).symm.trans hexec)
  have hne : s.deframe.status.outcome ≠ some .incomplete := by rcases hout with h | h <;> simp [h]
  obtain ⟨hstart, hend⟩ := not_or.mp (mt (deframe_outcome_incomplete_iff s).mpr hne)
  rw [s.deframe_rb]
  exact deframeScan_progress hstart hend

/-- The scan of an empty RB or of an open frame keeps it, and finds no whole frame. -/
theorem scan_of_residue {p : Params} {rb : Memory} (h : rb = [] ∨ OpenFrame p rb) :
    ((deframeScan p rb).event = .noStart ∨ (deframeScan p rb).event = .endOfBuffer) ∧ (deframeScan p rb).rb = rb := by
  rcases h with rfl | hopen
  · exact ⟨.inl rfl, rfl⟩
  · exact ⟨.inr hopen.scan.1, hopen.scan.2⟩

theorem exec_rbAppend_of_room {s : State} {o : List Byte} (ho : o.length ≤ 65535)
    (hroom : ∀ c ∈ s.params.rbCap, s.rb.length + o.length ≤ c) :
    exec (.rbAppend o) s = .next (s.answered (s.rb ++ o) s.status .ok []) := by
  rw [exec_rbAppend_of_length_le ho, if_pos ((Memory.fits_iff ..).mpr hroom)]
  rfl

/-- One byte fits in a buffer of legal capacity that holds at most 20 (R8, R76). -/
theorem exec_rbAppend_singleton {s : State} (hp : s.params.Wf) (hlen : s.rb.length ≤ 20) (b : Byte) :
    exec (.rbAppend [b]) s = .next (s.answered (s.rb ++ [b]) s.status .ok []) := by
  obtain ⟨-, -, -, hcap⟩ := hp
  refine exec_rbAppend_of_room (by simp) fun c hc => ?_
  have hc21 := hcap c hc
  rw [List.length_singleton]
  omega

/-- Settles O37: the residue is empty or an open frame, which is at most 20 bytes and scans to itself. -/
theorem incompleteResidueIsBounded : Obligations.IncompleteResidueIsBounded := by
  intro s t hp hexec hout
  have hparams := exec_params hexec
  obtain rfl := Host.Outcome.next.inj ((exec_deframe_nil s).symm.trans hexec)
  have hresidue := residue_of_scan hp s.rb ((deframe_outcome_incomplete_iff s).mp hout)
  rw [← s.deframe_rb] at hresidue
  have hlen : s.deframe.rb.length ≤ 20 := by
    rcases hresidue with h | h
    · simp [h]
    · exact h.length_le
  obtain ⟨hev, hrb⟩ := scan_of_residue hresidue
  have hagain := exec_deframe_of_incomplete (s := s.deframe) rfl (by rwa [hparams])
  rw [hparams, hrb] at hagain
  exact ⟨hresidue, hlen, exec_rbAppend_singleton (hparams ▸ hp) hlen, hagain⟩

end Sys2Proof.Machine
end

section
/-!
SUPPORT. DEFRAME on what the framer sends (spec/44_deframer.md R59 laws 5, 6 and 7): a frame comes back, alone, behind a
damaged one and after the frames before it, and one flipped bit in it is noticed.
-/

namespace Sys2Proof.Machine

/-! ### A good frame -/

/-- A frame is START, one unit for each data byte and for the check byte, and STOP (R27, R28). -/
theorem wireFrame_eq_units (p : Params) (d : List Byte) (c : Byte) :
    wireFrame p d c = p.start :: (unitBytes p ((d ++ [c]).map (unitOf p)) ++ [p.stop]) := by
  rw [unitBytes_unitOf]
  simp [wireFrame, escapeAll]

theorem unitOf_map_ok (p : Params) (s : List Byte) : ∀ u ∈ s.map (unitOf p), u.ok p := by
  intro u hu
  obtain ⟨b, -, rfl⟩ := List.mem_map.mp hu
  exact unitOf_ok p b

/-- DEFRAME gives a good frame's data back and leaves what follows the frame. -/
theorem exec_deframe_wireFrame {s : State} {w rest : List Byte} (hp : s.params.Wf) (hw : w.length ≤ 8)
    (hrb : s.rb = wireFrame s.params w (check s.mode w) ++ rest) :
    ∃ tr, exec (.deframe []) s = .next ((s.answered rest ⟨some .done, none⟩ .done w).withTransient tr) := by
  have h := exec_deframe_frame_concat (s := s) (g := []) (rest := rest)
    (us := (w ++ [check s.mode w]).map (unitOf s.params)) hp (by simp) (unitOf_map_ok _ _) (by simp; omega)
    (by simp [hrb, wireFrame_eq_units]) (literals_unitOf ..)
  rwa [if_pos rfl] at h

/-- Settles O39: the scan begins again at the good frame's START. -/
theorem damagedFrameThenGoodFrame : Obligations.DamagedFrameThenGoodFrame := by
  intro s g us w hp hg hus hl hw hrb
  obtain ⟨tail, htail⟩ : ∃ tail, wireFrame s.params w (check s.mode w) = s.params.start :: tail :=
    ⟨_, wireFrame_eq_units ..⟩
  rw [frame_short hw, htail] at hrb
  obtain ⟨t, tr, hgood, hexec⟩ := startInsideFrameResynchronises s g tail us hp hg hus hl (by simpa using hrb)
  obtain ⟨tr', hdone⟩ := exec_deframe_wireFrame (s := { s with rb := s.params.start :: tail }) (rest := []) hp hw
    (by rw [List.append_nil, htail])
  obtain rfl := Host.Outcome.next.inj (hgood.symm.trans hdone)
  exact ⟨tr, hexec⟩

/-! ### One flipped bit -/

theorem par_oneBit {k : Nat} (hk : k < 8) : par [1#8 <<< k] = 0x01 := by
  interval_cases k <;> decide

/-- One flipped bit changes the check in both modes (R40 law 1, R45 law 5). -/
theorem check_flip_ne (m : Mode) {k : Nat} (hk : k < 8) (a : List Byte) (b : Byte) (c : List Byte) :
    check m (a ++ (b ^^^ 1#8 <<< k) :: c) ≠ check m (a ++ b :: c) := by
  cases m with
  | crc8 => exact crc_flip_ne (oneBit_ne_zero hk) a b c
  | parity =>
    show par _ ≠ par _
    have hflip : par (a ++ (b ^^^ 1#8 <<< k) :: c) = par (a ++ b :: c) ^^^ 0x01 := by
      rw [par_append, par_append, par_cons, par_cons b, par_singleton_xor, par_oneBit hk]
      ac_rfl
    rw [hflip, ne_eq, xor_left_eq_self_iff]
    decide

@[simp] theorem WireUnit.flip_literal (k : Nat) (u : WireUnit) : (u.flip k).literal = u.literal ^^^ 1#8 <<< k := by
  cases u <;> rfl

theorem literals_cons (u : WireUnit) (us : List WireUnit) : literals (u :: us) = u.literal :: literals us := rfl

/-- With one bit flipped, the last literal is no longer the check of those before it. -/
theorem check_ne_of_flip {m : Mode} {ds : List WireUnit} {r : WireUnit} {j k : Nat}
    (hcheck : check m (literals ds) = r.literal) (hj : j ≤ ds.length) (hk : k < 8) :
    ∃ d c, literals ((ds ++ [r]).modify j (WireUnit.flip k)) = d ++ [c] ∧ check m d ≠ c := by
  obtain ⟨a, u, vs, hsplit, hmodify⟩ := exists_modify_eq (l := ds ++ [r]) (j := j) (by simp; omega)
  rw [hmodify]
  rcases List.eq_nil_or_concat' vs with rfl | ⟨vs, v, rfl⟩
  · obtain ⟨rfl, hr⟩ := List.append_inj' hsplit rfl
    obtain rfl : r = u := by simpa using hr
    refine ⟨literals ds, r.literal ^^^ 1#8 <<< k, by simp [literals], ?_⟩
    rw [hcheck]
    exact fun h => oneBit_ne_zero hk (xor_left_eq_self_iff.mp h.symm)
  · rw [← List.cons_append, ← List.append_assoc] at hsplit
    obtain ⟨rfl, hr⟩ := List.append_inj' hsplit rfl
    obtain rfl : r = v := by simpa using hr
    refine ⟨literals a ++ (u.literal ^^^ 1#8 <<< k) :: literals vs, r.literal, by simp [literals], ?_⟩
    rw [← hcheck, literals_append, literals_cons]
    exact check_flip_ne m hk _ _ _

/-- Settles O40: the scan still ends at STOP, and the check no longer matches. -/
theorem singleBitCorruptionIsDetected : Obligations.SingleBitCorruptionIsDetected := by
  intro s ds r rest j k hp _ hl hcheck hj hk hok hrb
  obtain ⟨d, c, hlits, hne⟩ := check_ne_of_flip hcheck hj hk
  have h := exec_deframe_frame_concat (g := []) hp (by simp) hok (by simp; omega) hrb hlits
  rwa [if_neg hne] at h

/-! ### The round trip -/

/-- The sub-frames make up the payload (R47). -/
theorem subframes_flatten (payload : List Byte) : (subframes payload).flatten = payload := by
  induction payload using subframe_induction with
  | short w hw => rw [subframes_short hw, List.flatten_singleton]
  | cons w rest hw hr ih => rw [subframes_cons hw hr, List.flatten_cons, ih]

theorem execAll_cons {i : Instr} {is : List Instr} {s t : State} (h : exec i s = .next t) :
    execAll (i :: is) s = execAll is t := by
  rw [execAll, h]

/-- The frames of some sub-frames, one after another (R47). -/
def goodFrames (p : Params) (m : Mode) (ws : List (List Byte)) : List Byte :=
  ws.flatMap fun w => wireFrame p w (check m w)

theorem goodFrames_cons (p : Params) (m : Mode) (w : List Byte) (ws : List (List Byte)) :
    goodFrames p m (w :: ws) = wireFrame p w (check m w) ++ goodFrames p m ws := List.flatMap_cons ..

theorem frame_eq_goodFrames (p : Params) (m : Mode) (payload : List Byte) :
    frame p m payload = goodFrames p m (subframes payload) := rfl

/-- A core that holds nothing but good frames gives their data back, one for each DEFRAME, and then answers INCOMPLETE. -/
theorem execAll_deframes (ws : List (List Byte)) (hws : ∀ w ∈ ws, w.length ≤ 8) {s : State} (hp : s.params.Wf)
    (hrb : s.rb = goodFrames s.params s.mode ws) :
    ∃ tr, execAll (List.replicate ws.length (.deframe []) ++ [.deframe []]) s =
      .next ({ s with
        rb := []
        status := ⟨some .incomplete, none⟩
        responses := s.responses ++ (ws.map (fun w => ⟨.done, w⟩) ++ [⟨.incomplete, []⟩]) : State }.withTransient tr) := by
  induction ws generalizing s with
  | nil =>
    obtain ⟨tr, h⟩ := exec_deframe_of_incomplete (s := s) rfl (.inl (by rw [hrb]; rfl))
    refine ⟨tr, (execAll_cons h).trans ?_⟩
    rw [hrb]
    rfl
  | cons w ws ih =>
    obtain ⟨tr, h⟩ := exec_deframe_wireFrame hp (hws w (by simp)) (hrb.trans (goodFrames_cons ..))
    obtain ⟨tr', hrest⟩ := ih (fun v hv => hws v (by simp [hv]))
      (s := (s.answered (goodFrames s.params s.mode ws) ⟨some .done, none⟩ .done w).withTransient tr) hp rfl
    refine ⟨tr', (execAll_cons h).trans (hrest.trans ?_)⟩
    simp [State.answered, State.withTransient]

/-- LOOPBACK of a legal payload into an empty RB with room for its frames leaves the frames there (R79). -/
theorem execAll_loopbackCommands {s : State} {payload : List Byte} (hrb : s.rb = []) (hlen : payload.length ≤ 26208)
    (hroom : ∀ c ∈ s.params.rbCap, (frame s.params s.mode payload).length ≤ c) :
    ∃ tr, ∀ is, execAll (loopbackCommands s.params s.mode payload ++ is) s = execAll is
      ({ s with
        rb := frame s.params s.mode payload
        responses := s.responses ++ [⟨.ok, frame s.params s.mode payload⟩, ⟨.ok, []⟩] : State }.withTransient tr) := by
  have hframes : (frame s.params s.mode payload).length ≤ 65535 :=
    Nat.le_trans (frame_length_le_of_legal hlen ..) (by decide)
  refine ⟨(s.frameTransients payload).transient, fun is => ?_⟩
  rw [loopbackCommands, frameResponse_legal hlen, List.cons_append, execAll_cons (exec_frame_of_length_le hlen s),
    List.cons_append, execAll_cons (exec_rbAppend_of_room hframes (by simpa [hrb] using hroom))]
  simp [State.answered, State.withTransient, hrb]

/-- Settles O41: FRAME, RB_APPEND of its frames, and then the DEFRAMEs, one for each sub-frame. -/
theorem loopbackReturnsPayload : Obligations.LoopbackReturnsPayload := by
  intro s payload hp hrb hlen hroom
  refine ⟨rfl, subframes_flatten payload, ?_⟩
  obtain ⟨tr, hloop⟩ := execAll_loopbackCommands hrb hlen hroom
  obtain ⟨tr', hdeframes⟩ := execAll_deframes (subframes payload) (fun w hw => subframes_length_le hw)
    (s := { s with
      rb := frame s.params s.mode payload
      responses := s.responses ++ [⟨.ok, frame s.params s.mode payload⟩, ⟨.ok, []⟩] : State }.withTransient tr)
    hp (frame_eq_goodFrames ..)
  refine ⟨tr', ?_⟩
  rw [List.append_assoc, hloop, hdeframes]
  simp [State.withTransient, hrb]

end Sys2Proof.Machine
end

section
/-!
SUPPORT. The text form of commands (spec/30_encoding.md R79): how each form of a line reads, what LOOPBACK stands for, and
when a program has a serial form.
-/

namespace Sys2Proof.Machine

/-- Each operand form of R79 and a comment line, read by the assembler. -/
theorem readLine_forms :
    readLine "DEFRAME".toList = some (.command (.deframe [])) ∧
    readLine "ESCAPE 0x7B -- one byte".toList = some (.command (.escape [0x7B])) ∧
    readLine "FRAME [0x01, 0x02, 0x03]".toList = some (.command (.frame [0x01, 0x02, 0x03])) ∧
    readLine ("RB_APPEND ".toList ++ [Char.ofNat 34, 'H', 'i', Char.ofNat 34]) =
      some (.command (.rbAppend [0x48, 0x69])) ∧
    readLine "-- a comment".toList = some .blank := by
  decide

theorem encodeAll_of_wf {is : List Instr} (h : ∀ i ∈ is, i.wf = true) : encodeAll is = some (is.map encode).flatten := by
  rw [encodeAll, if_pos (List.all_eq_true.mpr h), List.flatMap_def]

theorem encodeAll_eq_none {is : List Instr} {i : Instr} (hi : i ∈ is) (h : i.wf = false) : encodeAll is = none := by
  have hall : ¬ is.all Instr.wf = true := fun hall => by simp [List.all_eq_true.mp hall i hi] at h
  rw [encodeAll, if_neg hall]

/-- LOOPBACK's second command carries the data of the response its first one gives (R79). -/
theorem expand_loopback {s t : State} {payload : List Byte} (h : exec (.frame payload) s = .next t) :
    ∃ r, t.responses = s.responses ++ [r] ∧
      Line.expand s.params s.mode (.loopback payload) = [.frame payload, .rbAppend r.data] ∧
      (payload.length ≤ 26208 → r.data = frame s.params s.mode payload) ∧ (26208 < payload.length → r.data = []) :=
  ⟨_, exec_frame_response h, rfl, fun hle => by rw [frameResponse_legal hle],
    fun hlt => by rw [frameResponse_illegal hlt]⟩

/-- Settles O55: by reading the lines, and by the response of FRAME. -/
theorem assemblerForms : Obligations.AssemblerForms := by
  obtain ⟨hplain, hbyte, hlist, hstring, hcomment⟩ := readLine_forms
  refine ⟨hplain, hbyte, hlist, hstring, hcomment, fun s payload => ?_, fun _ => encodeAll_of_wf,
    fun _ _ => encodeAll_eq_none⟩
  obtain ⟨t, ht⟩ := exec_next (.frame payload) s
  obtain ⟨r, hr⟩ := expand_loopback ht
  exact ⟨t, r, ht, hr⟩

end Sys2Proof.Machine
end
